-- ==== Sys2Proof/Syntax.lean ====
section
/-! DEFINITION. The twelve commands of 30_encoding R92, one constructor per row of opcode_table.json. No command word carries an
operand: every command names its operands implicitly (R90, R93), so no constructor has an argument. -/

namespace Sys2Proof

/-- A command (30_encoding R92). -/
inductive Instr where
  /-- NOP, `0x00` (44_control R186). -/
  | nop
  /-- I2OSP, `0x01` (40_codec R112). -/
  | i2osp
  /-- OS2IP, `0x02` (40_codec R113). -/
  | os2ip
  /-- MGF1, `0x03` (41_mgf1 R122). -/
  | mgf1
  /-- RSAEP, `0x10` (43_rsa R155). -/
  | rsaep
  /-- RSADP, `0x11` (43_rsa R156). -/
  | rsadp
  /-- RSASP1, `0x12` (43_rsa R157). -/
  | rsasp1
  /-- RSAVP1, `0x13` (43_rsa R158). -/
  | rsavp1
  /-- OAEP_ENC, `0x20` (42_oaep R133). -/
  | oaepEnc
  /-- OAEP_DEC, `0x21` (42_oaep R137). -/
  | oaepDec
  /-- ENCRYPT, `0x30` (43_rsa R161). -/
  | encrypt
  /-- DECRYPT, `0x31` (43_rsa R163). -/
  | decrypt
  deriving DecidableEq, Repr

end Sys2Proof
end

