-- ==== Sys2Proof/Word.lean ====
section
/-! DEFINITION. The widths the spec uses: the octet (00_scope R13), the 32-bit register and command word (30_encoding R90)
and the 64-bit length argument (10_state R31). -/

namespace Sys2Proof

/-- An octet, `0..255` (00_scope R13). -/
abbrev Byte := BitVec 8

/-- A 32-bit register value or command word (00_scope R12, 30_encoding R90). -/
abbrev Word := BitVec 32

/-- The 64-bit length argument ALEN (10_state R31). -/
abbrev DWord := BitVec 64

/-- An octet string, first (most significant) octet first (00_scope R13). -/
abbrev Octets := List Byte

end Sys2Proof
end

