-- ==== Sys2Proof/Decode.lean ====
section
/-! DEFINITION. The decoder of 30_encoding R91, total on all `2^32` command words, and the encoder of R92. A command word is the
data of one 4-octet write to CMD, so it has no byte order of its own (20_memory R65 (d)). -/

namespace Sys2Proof

/-- `OPC`, bits 7:0 of a command word (30_encoding R90). -/
def opcField (w : Word) : Byte := w.extractLsb' 0 8

/-- `RSV`, bits 31:8 of a command word, which must be zero (30_encoding R90). -/
def rsvField (w : Word) : BitVec 24 := w.extractLsb' 8 24

/-- The opcode of each command (30_encoding R92). -/
def opcodeOf : Instr → Byte
  | .nop => 0x00#8
  | .i2osp => 0x01#8
  | .os2ip => 0x02#8
  | .mgf1 => 0x03#8
  | .rsaep => 0x10#8
  | .rsadp => 0x11#8
  | .rsasp1 => 0x12#8
  | .rsavp1 => 0x13#8
  | .oaepEnc => 0x20#8
  | .oaepDec => 0x21#8
  | .encrypt => 0x30#8
  | .decrypt => 0x31#8

/-- The command an opcode selects; `none` for the 244 values R95 calls illegal. -/
def decodeOpc (o : Byte) : Option Instr :=
  if o = 0x00#8 then some .nop
  else if o = 0x01#8 then some .i2osp
  else if o = 0x02#8 then some .os2ip
  else if o = 0x03#8 then some .mgf1
  else if o = 0x10#8 then some .rsaep
  else if o = 0x11#8 then some .rsadp
  else if o = 0x12#8 then some .rsasp1
  else if o = 0x13#8 then some .rsavp1
  else if o = 0x20#8 then some .oaepEnc
  else if o = 0x21#8 then some .oaepDec
  else if o = 0x30#8 then some .encrypt
  else if o = 0x31#8 then some .decrypt
  else none

/-- `Decode(w)` (30_encoding R91); `none` is R91's `Illegal`. -/
def decode (w : Word) : Option Instr :=
  if rsvField w = 0#24 then decodeOpc (opcField w) else none

/-- The command word of each command (30_encoding R92): its opcode with `RSV = 0`. -/
def encode (i : Instr) : Word := 0#24 ++ opcodeOf i

/-- The command whose bits, numbered as opcode_table.json numbers them, are `w`: a row's `nbits` low bits, every bit above them
zero. A command word is 32 bits, so a longer row or a number that does not fit its row is no command. -/
def decodeTableWord (nbits w : Nat) : Option Instr :=
  if nbits ≤ 32 ∧ w < 2 ^ nbits then decode (BitVec.ofNat 32 w) else none

end Sys2Proof
end

