-- ==== Sys2Proof/Machine/Errors.lean ====
section
/-! DEFINITION. The errors a command can report and their codes (60_exceptions R200). -/

namespace Sys2Proof.Machine

/-- The errors of 60_exceptions R200. -/
inductive CoreError where
  /-- R203: the message exceeds the OAEP capacity. -/
  | messageTooLong
  /-- R204: the integer exceeds the target octet width. -/
  | integerTooLarge
  /-- R205: an integer not below the modulus was fed to a primitive. -/
  | messageRepresentativeOutOfRange
  /-- R206: any failure of the decode side, deliberately unified. -/
  | decodingError
  /-- R207: the randomness port answered `none`. -/
  | randomnessUnavailable
  /-- R208: `maskLen > 2^32 * hLen`. -/
  | maskTooLong
  /-- R209: the command word is not one of the twelve. -/
  | illegalCommand
  /-- R209: a result does not fit its output. -/
  | capacityExceeded
  /-- R209: reserved, never produced. -/
  | internalDefect
  deriving DecidableEq, Repr

/-- The value STATUS.ERRCODE takes for an error (60_exceptions R200). -/
def errorCode : CoreError → BitVec 4
  | .messageTooLong => 1#4
  | .integerTooLarge => 2#4
  | .messageRepresentativeOutOfRange => 3#4
  | .decodingError => 4#4
  | .randomnessUnavailable => 5#4
  | .maskTooLong => 6#4
  | .illegalCommand => 7#4
  | .capacityExceeded => 8#4
  | .internalDefect => 15#4

end Sys2Proof.Machine
end

