-- ==== Sys2Proof/Machine/Codec.lean ====
section
/-! DEFINITION. big_endian_codec, the function layer of 40_codec (R110, R111), with the octet-string operations of 00_scope R13
and the bit length of R11. -/

namespace Sys2Proof.Machine

/-- `bitlen(x)`: the least `b` with `x < 2^b` (00_scope R11). -/
def bitLen (x : Nat) : Nat := if x = 0 then 0 else x.log2 + 1

/-- `ceil(a/b)` (00_scope R11). -/
def ceilDiv (a b : Nat) : Nat := (a + b - 1) / b

/-- `k = ceil(bitlen(N)/8)` (00_scope R10). -/
def byteLen (n : Nat) : Nat := ceilDiv (bitLen n) 8

/-- `zeros(n)`: `n` octets `0x00` (00_scope R13). -/
def zeros (n : Nat) : Octets := List.replicate n 0#8

/-- `A XOR B`, octet by octet, for strings of one length (00_scope R13). -/
def xorOctets (a b : Octets) : Octets := List.zipWith (· ^^^ ·) a b

/-- The octets of `x` in `length` places, most significant first: `X[i] = floor(x / 256^(length-1-i)) mod 256` (40_codec R110). -/
def octetsOf (x : Nat) : (length : Nat) → Octets
  | 0 => []
  | n + 1 => BitVec.ofNat 8 (x / 256 ^ n) :: octetsOf x n

/-- `I2OSP(x, length)` (40_codec R110). -/
def i2osp (x length : Nat) : Except CoreError Octets :=
  if x ≥ 256 ^ length then .error .integerTooLarge else .ok (octetsOf x length)

/-- `OS2IP(X)` (40_codec R111), by Horner's rule. -/
def os2ip (xs : Octets) : Nat := xs.foldl (fun acc b => acc * 256 + b.toNat) 0

end Sys2Proof.Machine
end

