-- ==== Sys2Proof/Config.lean ====
section
/-! DEFINITION. The five build-time parameters of 00_scope R7 with their constraints and defaults, and the model's two free
values: a hash function nothing is known about, and the answers of the randomness port. -/

namespace Sys2Proof

/-- Which hash function the block was built with (00_scope R7, R9; log 2). A selector and not a function, because it is carried
in State, which is plain data. -/
inductive HashSel where
  /-- SHA-256, the spec's default (00_scope R7; 93_implementation_defined G1; log 3). -/
  | sha256
  /-- The test hash TOY16 of 95_test_vectors section 1.1, a fixture of the spec's own vectors. -/
  | toy16
  /-- Any other hash function, told apart by a number: `Config.freeHash` says nothing of what it computes. -/
  | free (id : Nat)
  deriving DecidableEq, Repr

/-- The parameters of 00_scope R7. `HASH` is the selector `hash`. -/
structure Config where
  /-- KMAX, octets of each integer window. -/
  kmax : Nat
  /-- BMAX, octets of MBUF and of OBUF. -/
  bmax : Nat
  /-- LMAX, octets of LBUF. -/
  lmax : Nat
  /-- HLEN, the digest length in octets. -/
  hlen : Nat
  /-- HASH. -/
  hash : HashSel
  deriving DecidableEq, Repr

/-- The digest length a hash function fixes, where it fixes one (00_scope R8: "fixed by the chosen hash function"). -/
def HashSel.fixedLen : HashSel → Option Nat
  | .sha256 => some 32
  | .toy16 => some 2
  | .free _ => none

/-- The constraints of 00_scope R7, and R8's: HLEN is the one the chosen hash function fixes (log 17). -/
abbrev Config.Valid (c : Config) : Prop :=
  (c.kmax % 4 = 0 ∧ 4 ≤ c.kmax ∧ c.kmax ≤ 4096) ∧
  (c.bmax % 4 = 0 ∧ c.kmax ≤ c.bmax ∧ c.bmax ≤ 4096) ∧
  (c.lmax % 4 = 0 ∧ c.lmax ≤ 4096) ∧
  (1 ≤ c.hlen ∧ c.hlen ≤ 255) ∧
  (c.hash.fixedLen = none ∨ c.hash.fixedLen = some c.hlen)

/-- CFG-D, the defaults of 00_scope R7. -/
def Config.default : Config :=
  { kmax := 512, bmax := 512, lmax := 512, hlen := 32, hash := .sha256 }

/-- CFG-T, the toy configuration of 95_test_vectors section 1.2. -/
def Config.toy : Config :=
  { kmax := 16, bmax := 16, lmax := 8, hlen := 2, hash := .toy16 }

/-- FREE VALUE (log 2). The digest, read as a number, that hash function `id` gives for an octet string. Nothing constrains it:
00_scope R7 asks of HASH only that it is a function. -/
opaque Config.freeHash : (id : Nat) → Octets → Nat

/-- FREE VALUE (log 4). What the randomness port answers the `n`-th time it is asked. Nothing constrains it: 10_state R45 makes the
answer a free input, "any `HLEN` octets, or `none`". -/
opaque Config.freeDraw : (n : Nat) → Option Octets

end Sys2Proof
end

