-- ==== Sys2Proof/Machine/State.lean ====
section
/-! DEFINITION. The complete state of the block (10_state R20), what the outside world does to it held as plain data, the state
after reset (R51, 70_reset R230), and the reasons a step could stop (none ever does, 60_exceptions R202). -/

namespace Sys2Proof.Machine

/-- The sequencer state (10_state R42). -/
inductive Seq where
  /-- No command is in flight. -/
  | idle
  /-- One command, named by CMDR, is in flight. -/
  | busy
  deriving DecidableEq, Repr

/-- The answer of the block to a host transaction (20_memory R60). -/
inductive Resp where
  /-- The transaction was carried out. -/
  | okay
  /-- The transaction was refused and changed nothing. -/
  | err
  deriving DecidableEq, Repr

/-- What the outside world does next: one of the steps of 44_control R180. -/
inductive Event where
  /-- A host read of `size` octets at `addr` (20_memory R62). -/
  | hostRead (addr size : Nat)
  /-- A host write of `size` octets at `addr` (20_memory R63). -/
  | hostWrite (addr size : Nat) (value : Word)
  /-- The core sequencer moves: COMPLETE if it is BUSY (44_control R184). -/
  | coreTurn
  /-- The `rst` input is asserted (70_reset R230). -/
  | hardReset
  deriving DecidableEq, Repr

/-- What the block answered to one host transaction. -/
inductive Answer where
  /-- A read returned this response and these data. -/
  | read (resp : Resp) (data : Word)
  /-- A write returned this response. -/
  | written (resp : Resp)
  deriving DecidableEq, Repr

/-- The world outside the block, as the model's own plain data (log 4, 6, 10): 00_scope R19 says none of it is the block's
state. -/
structure Env where
  /-- What happens next, in order. -/
  agenda : List Event
  /-- The answers of the host transactions so far, newest first. -/
  answers : List Answer
  /-- What the randomness port will answer, in order (`none`: the source failed). -/
  draws : List (Option Octets)
  /-- How often the randomness port was asked. -/
  asked : Nat
  deriving DecidableEq, Repr

/-- The internal values of a command (10_state R44), which no host access reaches. -/
structure Scratch where
  lHash : Octets
  ps : Octets
  db : Octets
  seed : Octets
  dbMask : Octets
  maskedDB : Octets
  seedMask : Octets
  maskedSeed : Octets
  em : Octets
  t : Octets
  counter : Word
  integers : List Nat
  deriving DecidableEq, Repr

/-- Scratch after COMPLETE and after reset (10_state R44). -/
def Scratch.zero : Scratch :=
  { lHash := [], ps := [], db := [], seed := [], dbMask := [], maskedDB := [], seedMask := [], maskedSeed := [],
    em := [], t := [], counter := 0#32, integers := [] }

/-- The state of the block (10_state R20), and beside it the build parameters and the outside world. -/
structure State where
  /-- The parameters the block was built with (00_scope R7); no step changes them (log 1). -/
  cfg : Config
  /-- The octet cells of the eight windows, at their host addresses (20_memory R61): strictly rising addresses, no cell
  holding `0x00`, which is what an unlisted address holds (10_state R21; log 15). -/
  mem : List Host.Cell
  /-- ALEN (10_state R31). -/
  alen : DWord
  /-- MLEN (10_state R32). -/
  mlen : Word
  /-- LLEN (10_state R33). -/
  llen : Word
  /-- OLEN (10_state R34). -/
  olen : Word
  /-- CTRL.IE (10_state R39). -/
  ie : Bool
  /-- SEQ (10_state R42). -/
  seq : Seq
  /-- CMDR (10_state R42). -/
  cmdr : Word
  /-- STATUS.DONE (10_state R40). -/
  done : Bool
  /-- STATUS.ERRCODE (10_state R40). -/
  errcode : BitVec 4
  /-- Scratch (10_state R44; log 13). -/
  scratch : Scratch
  /-- The outside world (the model's own, log 4, 6, 10). -/
  env : Env
  deriving DecidableEq, Repr

/-- Why the machine could stop. No step of the model raises it: 60_exceptions R202, "there is no input ... for which the block
hangs, locks up, or needs a reset". -/
inductive Fault where
  /-- 60_exceptions R209's "truly unreachable internal invariant violations": raised by nothing (safe). -/
  | internalDefect
  deriving DecidableEq, Repr

/-- Why an instruction could be turned away. No meaning of the model answers with it. -/
inductive Refusal where
  /-- The command has no meaning in the model yet: raised only by an arm of exec that says so (safe). -/
  | notModelled (mnemonic : String)
  deriving DecidableEq, Repr

/-- The outside world before anything has happened: nothing to come, nothing answered, the randomness port not asked
(DESIGN CHOICE, log 4, 6). -/
def Env.quiet : Env := { agenda := [], answers := [], draws := [], asked := 0 }

/-- The block right after reset (10_state R51): every stored item zero, SEQ IDLE; built with the default parameters (00_scope
R7). -/
def State.reset : State :=
  { cfg := Config.default, mem := [], alen := 0#64, mlen := 0#32, llen := 0#32, olen := 0#32, ie := false, seq := .idle,
    cmdr := 0#32, done := false, errcode := 0#4, scratch := Scratch.zero, env := Env.quiet }

end Sys2Proof.Machine
end

