-- ==== Sys2Proof/Machine/Ops.lean ====
section
/-! DEFINITION. The operations over memory, windows and the sequencer that every meaning uses: the octet cells (10_state R21), the
windows (20_memory R61), ISSUE (44_control R181), the end of a command and the taking of an error (R184, R185, 60_exceptions
R201), and the state change of a reset (70_reset R230, R232). -/

namespace Sys2Proof.Machine

/-! ### Octet cells -/

/-- The canonical form of memory: strictly rising addresses, and no cell that holds `0x00`, which is what an unlisted address
reads as (10_state R21). -/
abbrev Memory.wf (m : List Host.Cell) : Prop :=
  m.Pairwise (fun c d => c.1 < d.1) ∧ ∀ c ∈ m, c.2 ≠ 0x00#8

/-- The octet at address `a`; `0x00` where nothing is listed (10_state R21). -/
def Memory.read : List Host.Cell → Nat → Byte
  | [], _ => 0x00#8
  | c :: m, a => if a = c.1 then c.2 else Memory.read m a

/-- Put a cell at its place, before the first cell of a higher address. -/
def Memory.insert : List Host.Cell → Nat → Byte → List Host.Cell
  | [], a, b => [(a, b)]
  | c :: m, a, b => if a < c.1 then (a, b) :: c :: m else c :: Memory.insert m a b

/-- Clear `n` octets from address `a` on (they read `0x00` afterwards). -/
def Memory.clear (m : List Host.Cell) (a n : Nat) : List Host.Cell :=
  m.filter (fun c => decide (c.1 < a) || decide (a + n ≤ c.1))

/-- Write one octet, keeping the canonical form. -/
def Memory.write (m : List Host.Cell) (a : Nat) (b : Byte) : List Host.Cell :=
  let m' := Memory.clear m a 1
  if b = 0x00#8 then m' else Memory.insert m' a b

/-- `n` octets from address `a` on, lowest address first. -/
def Memory.readBytes (m : List Host.Cell) : (a n : Nat) → Octets
  | _, 0 => []
  | a, n + 1 => Memory.read m a :: Memory.readBytes m (a + 1) n

/-- Write an octet string from address `a` on, its first octet at the lowest address (20_memory R65 (a)). -/
def Memory.writeBytes : List Host.Cell → Nat → Octets → List Host.Cell
  | m, _, [] => m
  | m, a, b :: bs => Memory.writeBytes (Memory.write m a b) (a + 1) bs

/-! ### Windows -/

/-- The eight windows (20_memory R61). -/
inductive Window where
  | nwin
  | ewin
  | dwin
  | xwin
  | ywin
  | mbuf
  | lbuf
  | obuf
  deriving DecidableEq, Repr

/-- The host address of a window's octet 0 (20_memory R61). -/
def windowBase : Window → Nat
  | .nwin => 0x1000
  | .ewin => 0x2000
  | .dwin => 0x3000
  | .xwin => 0x4000
  | .ywin => 0x5000
  | .mbuf => 0x6000
  | .lbuf => 0x7000
  | .obuf => 0x8000

/-- The capacity of a window in octets (20_memory R61, 00_scope R7). -/
def windowCap (c : Config) : Window → Nat
  | .nwin | .ewin | .dwin | .xwin | .ywin => c.kmax
  | .mbuf | .obuf => c.bmax
  | .lbuf => c.lmax

/-- Address `a` is an octet of window `w`. -/
def inWindow (c : Config) (w : Window) (a : Nat) : Bool :=
  decide (windowBase w ≤ a) && decide (a < windowBase w + windowCap c w)

/-- The window of the page `addr[15:12]` (20_memory R61, R62). -/
def windowOfPage : (page : Nat) → Option Window
  | 1 => some .nwin
  | 2 => some .ewin
  | 3 => some .dwin
  | 4 => some .xwin
  | 5 => some .ywin
  | 6 => some .mbuf
  | 7 => some .lbuf
  | 8 => some .obuf
  | _ => none

/-- The first `n` octets of a window. -/
def windowPart (s : State) (w : Window) (n : Nat) : Octets := Memory.readBytes s.mem (windowBase w) n

/-- Write an octet string at the start of a window. -/
def putWindow (s : State) (w : Window) (xs : Octets) : State :=
  { s with mem := Memory.writeBytes s.mem (windowBase w) xs }

/-- Write an octet string to OBUF and its length to OLEN (10_state R30, 30_encoding R93). -/
def putString (s : State) (xs : Octets) : State :=
  { s with mem := Memory.writeBytes s.mem (windowBase .obuf) xs, olen := BitVec.ofNat 32 xs.length }

/-! ### The sequencer -/

/-- `Issue(w)` (44_control R181). -/
def issue (s : State) (w : Word) : State :=
  { s with cmdr := w, seq := .busy, done := false, errcode := 0#4 }

/-- Every command but NOP and an illegal word clears OBUF, OLEN and YWIN before its result is written (44_control R185). -/
def clearOutputs (s : State) : State :=
  { s with
    mem := Memory.clear (Memory.clear s.mem (windowBase .obuf) (windowCap s.cfg .obuf)) (windowBase .ywin)
      (windowCap s.cfg .ywin)
    olen := 0#32 }

/-- The last four lines of `Complete` (44_control R184): scratch zero, the code recorded, DONE set, SEQ IDLE. -/
def finish (s : State) (code : BitVec 4) : State :=
  { s with scratch := Scratch.zero, errcode := code, done := true, seq := .idle }

/-- TAKING AN ERROR (60_exceptions R201, R213; 44_control R184): the outputs stay cleared, no result is written, the code is
recorded and the block is IDLE; control goes nowhere and nothing is saved. -/
def raiseError (s : State) (e : CoreError) : State := finish (clearOutputs s) (errorCode e)

/-- COMPLETE of an illegal word (44_control R187): only the code, DONE and SEQ change; outputs keep their values. -/
def completeIllegal (s : State) : State := finish s (errorCode .illegalCommand)

/-- RETURN FROM AN ERROR (60_exceptions R214) needs nothing restored: the host acknowledges by clearing DONE (20_memory R63,
address 0x0010) or issues the next command. This is the acknowledgement. -/
def clearDone (s : State) : State := { s with done := false }

/-- COMPLETE of a data command with an octet-string result (44_control R184, R185): OBUF and OLEN, or the error. -/
def completeString (s : State) (r : Except CoreError Octets) : State :=
  match r with
  | .error e => raiseError s e
  | .ok xs => finish (putString (clearOutputs s) xs) 0#4

/-- COMPLETE of a data command with an integer result (44_control R184, R185): `YWIN <- I2OSP(result, KMAX)` (10_state R27), or the
error. -/
def completeInt (s : State) (r : Except CoreError Nat) : State :=
  match r with
  | .error e => raiseError s e
  | .ok v =>
    match i2osp v s.cfg.kmax with
    | .error e => raiseError s e
    | .ok xs => finish (putWindow (clearOutputs s) .ywin xs) 0#4

/-- The state change of hardware reset and of soft reset (70_reset R230, R232): every stored item at its reset value. What the block
was built with and the world outside it are not stored items (00_scope R19; log 19). -/
def resetBlock (s : State) : State := { State.reset with cfg := s.cfg, env := s.env }

end Sys2Proof.Machine
end

