-- ==== Sys2Proof/Machine/Operands.lean ====
section
/-! DEFINITION. The implicit operands of the commands (30_encoding R93, R94): an integer window, the string of a buffer, the length
argument, the derived byte length K, and the answer of the randomness port. -/

namespace Sys2Proof.Machine

/-- `int(W) = OS2IP(W[0..KMAX))`, the integer a window holds (10_state R22). -/
def intOf (s : State) (w : Window) : Nat := os2ip (windowPart s w s.cfg.kmax)

/-- `K`, derived from NWIN at every instant and never stored (10_state R35). -/
def kOf (s : State) : Nat := byteLen (intOf s .nwin)

/-- `MBUF[0..MLEN)` (10_state R28). -/
def mbufString (s : State) : Octets := windowPart s .mbuf s.mlen.toNat

/-- The label `L = LBUF[0..LLEN)` (10_state R29). -/
def labelString (s : State) : Octets := windowPart s .lbuf s.llen.toNat

/-- `OBUF[0..OLEN)` (10_state R30): what the host reads as the result of the last command. -/
def obufString (s : State) : Octets := windowPart s .obuf s.olen.toNat

/-- ALEN as the number of octets I2OSP and MGF1 take (30_encoding R94): not scaled, not sign-extended. -/
def lengthArg (s : State) : Nat := s.alen.toNat

/-- What the randomness port answers if it is asked now (10_state R45; log 4): the next answer listed, or, when none is listed, a
free value. An answer that is not HLEN octets is no answer of the port and is presented as `none` (log 5). -/
def drawAnswer (s : State) : Option Octets :=
  match s.env.draws with
  | [] => (Config.freeDraw s.env.asked).filter (fun x => decide (x.length = s.cfg.hlen))
  | d :: _ => d.filter (fun x => decide (x.length = s.cfg.hlen))

/-- The randomness port was asked once: its answer is used up. -/
def drawTaken (s : State) : State :=
  { s with env := { s.env with draws := s.env.draws.tail, asked := s.env.asked + 1 } }

end Sys2Proof.Machine
end

