-- ==== Sys2Proof/Machine/CodecCmds.lean ====
section
/-! DEFINITION. The commands I2OSP and OS2IP (40_codec R112, R113). -/

namespace Sys2Proof.Machine

/-- The computation part of the I2OSP command (40_codec R112). The first test is made only for `length < KMAX`, where `256^length` is
within the window's range; for a longer length it cannot hold. -/
def i2ospResult (c : Config) (x length : Nat) : Except CoreError Octets :=
  if length < c.kmax ∧ x ≥ 256 ^ length then .error .integerTooLarge
  else if length > c.bmax then .error .capacityExceeded
  else i2osp x length

/-- I2OSP (40_codec R112): `x = int(XWIN)`, `length = ALEN`; result OBUF, OLEN. -/
def execI2osp (s : State) : Host.Outcome State Fault Refusal :=
  .next (completeString s (i2ospResult s.cfg (intOf s .xwin) (lengthArg s)))

/-- The computation part of the OS2IP command (40_codec R113). -/
def os2ipResult (c : Config) (xs : Octets) : Except CoreError Nat :=
  if os2ip xs ≥ 256 ^ c.kmax then .error .capacityExceeded else .ok (os2ip xs)

/-- OS2IP (40_codec R113): `X = MBUF[0..MLEN)`; result YWIN. -/
def execOs2ip (s : State) : Host.Outcome State Fault Refusal :=
  .next (completeInt s (os2ipResult s.cfg (mbufString s)))

end Sys2Proof.Machine
end

