-- ==== Sys2Proof/Machine/Sha256.lean ====
section
/-! DEFINITION. SHA-256, the default HASH of 00_scope R7. The spec names it and does not define it ("from general knowledge, not in
source", 93_implementation_defined G1), so this file is PRESUMED (log 3): FIPS 180-4, checked against the spec's own vectors
V-MGF-S (95_test_vectors section 3.2). -/

namespace Sys2Proof.Machine

/-- Round constants 0 to 7. -/
def shaK0 : List Word :=
  [0x428a2f98#32, 0x71374491#32, 0xb5c0fbcf#32, 0xe9b5dba5#32, 0x3956c25b#32, 0x59f111f1#32, 0x923f82a4#32, 0xab1c5ed5#32]

/-- Round constants 8 to 15. -/
def shaK1 : List Word :=
  [0xd807aa98#32, 0x12835b01#32, 0x243185be#32, 0x550c7dc3#32, 0x72be5d74#32, 0x80deb1fe#32, 0x9bdc06a7#32, 0xc19bf174#32]

/-- Round constants 16 to 23. -/
def shaK2 : List Word :=
  [0xe49b69c1#32, 0xefbe4786#32, 0x0fc19dc6#32, 0x240ca1cc#32, 0x2de92c6f#32, 0x4a7484aa#32, 0x5cb0a9dc#32, 0x76f988da#32]

/-- Round constants 24 to 31. -/
def shaK3 : List Word :=
  [0x983e5152#32, 0xa831c66d#32, 0xb00327c8#32, 0xbf597fc7#32, 0xc6e00bf3#32, 0xd5a79147#32, 0x06ca6351#32, 0x14292967#32]

/-- Round constants 32 to 39. -/
def shaK4 : List Word :=
  [0x27b70a85#32, 0x2e1b2138#32, 0x4d2c6dfc#32, 0x53380d13#32, 0x650a7354#32, 0x766a0abb#32, 0x81c2c92e#32, 0x92722c85#32]

/-- Round constants 40 to 47. -/
def shaK5 : List Word :=
  [0xa2bfe8a1#32, 0xa81a664b#32, 0xc24b8b70#32, 0xc76c51a3#32, 0xd192e819#32, 0xd6990624#32, 0xf40e3585#32, 0x106aa070#32]

/-- Round constants 48 to 55. -/
def shaK6 : List Word :=
  [0x19a4c116#32, 0x1e376c08#32, 0x2748774c#32, 0x34b0bcb5#32, 0x391c0cb3#32, 0x4ed8aa4a#32, 0x5b9cca4f#32, 0x682e6ff3#32]

/-- Round constants 56 to 63. -/
def shaK7 : List Word :=
  [0x748f82ee#32, 0x78a5636f#32, 0x84c87814#32, 0x8cc70208#32, 0x90befffa#32, 0xa4506ceb#32, 0xbef9a3f7#32, 0xc67178f2#32]

/-- The 64 round constants: the first 32 fraction bits of the cube roots of the first 64 primes. PRESUMED (log 3). -/
def shaK : List Word := shaK0 ++ shaK1 ++ shaK2 ++ shaK3 ++ shaK4 ++ shaK5 ++ shaK6 ++ shaK7

/-- The eight working words of the compression function. -/
structure ShaState where
  a : Word
  b : Word
  c : Word
  d : Word
  e : Word
  f : Word
  g : Word
  h : Word
  deriving DecidableEq, Repr

/-- The initial hash value: the first 32 fraction bits of the square roots of the first eight primes. PRESUMED (log 3). -/
def shaInit : ShaState :=
  { a := 0x6a09e667#32, b := 0xbb67ae85#32, c := 0x3c6ef372#32, d := 0xa54ff53a#32,
    e := 0x510e527f#32, f := 0x9b05688c#32, g := 0x1f83d9ab#32, h := 0x5be0cd19#32 }

/-- The first function of the message schedule. -/
def shaSmall0 (x : Word) : Word := x.rotateRight 7 ^^^ x.rotateRight 18 ^^^ (x >>> 3)

/-- The second function of the message schedule. -/
def shaSmall1 (x : Word) : Word := x.rotateRight 17 ^^^ x.rotateRight 19 ^^^ (x >>> 10)

/-- The function of `a` in a round. -/
def shaBig0 (x : Word) : Word := x.rotateRight 2 ^^^ x.rotateRight 13 ^^^ x.rotateRight 22

/-- The function of `e` in a round. -/
def shaBig1 (x : Word) : Word := x.rotateRight 6 ^^^ x.rotateRight 11 ^^^ x.rotateRight 25

/-- `n` more words of the message schedule, the newest word first in the list. -/
def shaExtend : Nat → List Word → List Word
  | 0, ws => ws
  | n + 1, ws =>
    shaExtend n ((shaSmall1 (ws.getD 1 0) + ws.getD 6 0 + shaSmall0 (ws.getD 14 0) + ws.getD 15 0) :: ws)

/-- The 16 words of a block of 64 octets, each big-endian. -/
def shaWords : (n : Nat) → Octets → List Word
  | 0, _ => []
  | n + 1, xs => BitVec.ofNat 32 (os2ip (xs.take 4)) :: shaWords n (xs.drop 4)

/-- One round, with its round constant and schedule word. -/
def shaRound (s : ShaState) (kw : Word × Word) : ShaState :=
  let t1 := s.h + shaBig1 s.e + ((s.e &&& s.f) ^^^ (~~~s.e &&& s.g)) + kw.1 + kw.2
  let t2 := shaBig0 s.a + ((s.a &&& s.b) ^^^ (s.a &&& s.c) ^^^ (s.b &&& s.c))
  { a := t1 + t2, b := s.a, c := s.b, d := s.c, e := s.d + t1, f := s.e, g := s.f, h := s.g }

/-- The compression of one block of 64 octets into the hash value. -/
def shaBlock (s : ShaState) (block : Octets) : ShaState :=
  let ws := (shaExtend 48 (shaWords 16 block).reverse).reverse
  let r := (shaK.zip ws).foldl shaRound s
  { a := s.a + r.a, b := s.b + r.b, c := s.c + r.c, d := s.d + r.d,
    e := s.e + r.e, f := s.f + r.f, g := s.g + r.g, h := s.h + r.h }

/-- The compression of `n` blocks in a row. -/
def shaBlocks : (n : Nat) → ShaState → Octets → ShaState
  | 0, s, _ => s
  | n + 1, s, xs => shaBlocks n (shaBlock s (xs.take 64)) (xs.drop 64)

/-- The message with its padding: `0x80`, zeros up to 56 octets modulo 64, and the bit length in 8 octets. -/
def shaPad (xs : Octets) : Octets :=
  xs ++ [0x80#8] ++ zeros ((119 - xs.length % 64) % 64) ++ octetsOf (8 * xs.length) 8

/-- The SHA-256 digest read as a number of 256 bits, first octet most significant. -/
def sha256Value (xs : Octets) : Nat :=
  let p := shaPad xs
  let s := shaBlocks (p.length / 64) shaInit p
  (s.a ++ s.b ++ s.c ++ s.d ++ s.e ++ s.f ++ s.g ++ s.h).toNat

end Sys2Proof.Machine
end

