-- ==== Sys2Proof/Machine/Hash.lean ====
section
/-! DEFINITION. The hash port (10_state R46): `Hash(X)`, HLEN octets, a pure function fixed at build time (00_scope R7, R9). -/

namespace Sys2Proof.Machine

/-- The test hash TOY16 read as a number (95_test_vectors section 1.1). -/
def toy16Value (xs : Octets) : Nat := xs.foldl (fun s b => (s * 31 + b.toNat + 1) % 65536) 0xABCD

/-- The digest as a number, by the chosen hash function. -/
def hashValue (h : HashSel) (xs : Octets) : Nat :=
  match h with
  | .sha256 => sha256Value xs
  | .toy16 => toy16Value xs
  | .free id => Config.freeHash id xs

/-- `Hash(X)`: exactly HLEN octets (00_scope R7, 10_state R46). -/
def hash (c : Config) (xs : Octets) : Octets := octetsOf (hashValue c.hash xs) c.hlen

end Sys2Proof.Machine
end

