-- ==== Sys2Proof/Machine/Mgf.lean ====
section
/-! DEFINITION. MGF1_mask_generator, the function layer of 41_mgf1 (R120, R121). -/

namespace Sys2Proof.Machine

/-- `Hash(seed ‖ I2OSP(counter, 4))`, the block of one counter value (41_mgf1 R120). The counter always fits its four octets
(R123 (c)). -/
def mgfBlock (c : Config) (seed : Octets) (counter : Nat) : Octets := hash c (seed ++ octetsOf counter 4)

/-- The accumulator `T` after `n` iterations, counters `0` to `n - 1` (41_mgf1 R120). -/
def mgfBlocks (c : Config) (seed : Octets) : (n : Nat) → Octets
  | 0 => []
  | n + 1 => mgfBlocks c seed n ++ mgfBlock c seed n

/-- `MGF(seed, maskLen)` (41_mgf1 R120): exactly `ceil(maskLen/hLen)` iterations (R121). -/
def mgf (c : Config) (seed : Octets) (maskLen : Nat) : Except CoreError Octets :=
  if maskLen > 2 ^ 32 * c.hlen then .error .maskTooLong
  else .ok ((mgfBlocks c seed (ceilDiv maskLen c.hlen)).take maskLen)

end Sys2Proof.Machine
end

