-- ==== Sys2Proof/Machine/Oaep.lean ====
section
/-! DEFINITION. OAEP_encoder and OAEP_decoder, the function layer of 42_oaep (R131, R135). -/

namespace Sys2Proof.Machine

/-- Step 1 of `OAEP_Encode`: the message fits a modulus of `k` octets (42_oaep R131), compared without subtraction. -/
def oaepFits (c : Config) (k mLen : Nat) : Bool := decide (mLen + 2 * c.hlen + 2 ≤ k)

/-- `DB = lHash ‖ PS ‖ 0x01 ‖ M` (42_oaep R130, R131 steps 2 to 4). -/
def oaepDB (c : Config) (k : Nat) (m l : Octets) : Octets :=
  hash c l ++ zeros (k - m.length - 2 * c.hlen - 2) ++ [0x01#8] ++ m

/-- Steps 6 to 8 of `OAEP_Encode` (42_oaep R131): mask DB with the seed, the seed with the masked DB, and put the three parts of EM
in order. -/
def oaepMask (c : Config) (k : Nat) (seed db : Octets) : Except CoreError Octets :=
  match mgf c seed (k - c.hlen - 1) with
  | .error e => .error e
  | .ok dbMask =>
    let maskedDB := xorOctets db dbMask
    match mgf c maskedDB c.hlen with
    | .error e => .error e
    | .ok seedMask =>
      let maskedSeed := xorOctets seed seedMask
      .ok (0x00#8 :: (maskedSeed ++ maskedDB))

/-- `OAEP_Encode(N, M, L, draw)` (42_oaep R131). `draw` is what the randomness port answers if it is asked. -/
def oaepEncode (c : Config) (n : Nat) (m l : Octets) (draw : Option Octets) : Except CoreError Octets :=
  let k := byteLen n
  if oaepFits c k m.length then
    match draw with
    | none => .error .randomnessUnavailable
    | some seed => oaepMask c k seed (oaepDB c k m l)
  else .error .messageTooLong

/-- The message after the separator: the first octet that is not `0x00` must be `0x01` (42_oaep R135 step 5, R136). -/
def splitSeparator : Octets → Option Octets
  | [] => none
  | b :: rest => if b = 0x00#8 then splitSeparator rest else if b = 0x01#8 then some rest else none

/-- `OAEP_Decode(N, EM, L)` (42_oaep R135): every cause raises the one error, after all masks were computed. -/
def oaepDecode (c : Config) (n : Nat) (em l : Octets) : Except CoreError Octets :=
  let k := byteLen n
  if em.length ≠ k ∨ k < 2 * c.hlen + 2 then .error .decodingError
  else
    let y := em.headD 0x00#8
    let maskedSeed := (em.drop 1).take c.hlen
    let maskedDB := em.drop (c.hlen + 1)
    match mgf c maskedDB c.hlen with
    | .error e => .error e
    | .ok seedMask =>
      let seed := xorOctets maskedSeed seedMask
      match mgf c seed (k - c.hlen - 1) with
      | .error e => .error e
      | .ok dbMask =>
        let db := xorOctets maskedDB dbMask
        match splitSeparator (db.drop c.hlen) with
        | none => .error .decodingError
        | some m => if y ≠ 0x00#8 ∨ db.take c.hlen ≠ hash c l then .error .decodingError else .ok m

end Sys2Proof.Machine
end

