-- ==== Sys2Proof/Machine/OaepCmds.lean ====
section
/-! DEFINITION. The commands OAEP_ENC and OAEP_DEC (42_oaep R133, R137). -/

namespace Sys2Proof.Machine

/-- An encoding asks the randomness port exactly when its length check passed (42_oaep R131, R133). -/
def asksDraw (s : State) : Bool := oaepFits s.cfg (kOf s) (mbufString s).length

/-- The state with the randomness port asked, if the encoding asks it (10_state R45: at most once). -/
def afterDraw (s : State) : State := if asksDraw s then drawTaken s else s

/-- OAEP_ENC (42_oaep R133): `M = MBUF[0..MLEN)`, `L = LBUF[0..LLEN)`, `N = int(NWIN)`, at most one draw; result OBUF, OLEN. -/
def execOaepEnc (s : State) : Host.Outcome State Fault Refusal :=
  .next (completeString (afterDraw s)
    (oaepEncode s.cfg (intOf s .nwin) (mbufString s) (labelString s) (drawAnswer s)))

/-- OAEP_DEC (42_oaep R137): `EM = MBUF[0..MLEN)`, `L = LBUF[0..LLEN)`, `N = int(NWIN)`; result OBUF, OLEN. -/
def execOaepDec (s : State) : Host.Outcome State Fault Refusal :=
  .next (completeString s (oaepDecode s.cfg (intOf s .nwin) (mbufString s) (labelString s)))

end Sys2Proof.Machine
end

