-- ==== Sys2Proof/Machine/Rsa.lean ====
section
/-! DEFINITION. modular_exponentiation_engine and the composed operations, the function layer of 43_rsa (R152, R153, R160, R162). -/

namespace Sys2Proof.Machine

/-- The loop of 43_rsa R153 over bits `i - 1` down to `0` of the exponent `x`, from the accumulator `r`. -/
def modExpLoop (b x n : Nat) : (i : Nat) → (r : Nat) → Nat
  | 0, r => r
  | i + 1, r =>
    let sq := (r * r) % n
    modExpLoop b x n i (if x.testBit i then (sq * b) % n else sq)

/-- `ModExp(b, x, n)`, for `n >= 1`, by the reference algorithm of 43_rsa R153: left-to-right square-and-multiply (log 14). Its value is
`b^x mod n` (R150). -/
def modExp (b x n : Nat) : Nat := modExpLoop b x n (bitLen x) (1 % n)

/-- `Prim(v, x, n)`, all four RSA primitives (43_rsa R152). -/
def prim (v x n : Nat) : Except CoreError Nat :=
  if v ≥ n then .error .messageRepresentativeOutOfRange else .ok (modExp v x n)

/-- `Encrypt((n, e), M, L, draw)` (43_rsa R160). -/
def rsaEncrypt (c : Config) (n e : Nat) (m l : Octets) (draw : Option Octets) : Except CoreError Octets :=
  match oaepEncode c n m l draw with
  | .error err => .error err
  | .ok em =>
    match prim (os2ip em) e n with
    | .error err => .error err
    | .ok ct => i2osp ct (byteLen n)

/-- `Decrypt((n, d), C, L)` (43_rsa R162). -/
def rsaDecrypt (c : Config) (n d : Nat) (ct l : Octets) : Except CoreError Octets :=
  if ct.length ≠ byteLen n then .error .decodingError
  else
    match prim (os2ip ct) d n with
    | .error err => .error err
    | .ok m =>
      match i2osp m (byteLen n) with
      | .error err => .error err
      | .ok em => oaepDecode c n em l

end Sys2Proof.Machine
end

