-- ==== Sys2Proof/Machine/CompositeCmds.lean ====
section
/-! DEFINITION. The commands ENCRYPT and DECRYPT (43_rsa R161, R163). -/

namespace Sys2Proof.Machine

/-- ENCRYPT (43_rsa R161): `M = MBUF[0..MLEN)`, `L = LBUF[0..LLEN)`, `n = int(NWIN)`, `e = int(EWIN)`, at most one draw; result OBUF,
OLEN. -/
def execEncrypt (s : State) : Host.Outcome State Fault Refusal :=
  .next (completeString (afterDraw s)
    (rsaEncrypt s.cfg (intOf s .nwin) (intOf s .ewin) (mbufString s) (labelString s) (drawAnswer s)))

/-- DECRYPT (43_rsa R163): `C = MBUF[0..MLEN)`, `L = LBUF[0..LLEN)`, `n = int(NWIN)`, `d = int(DWIN)`; result OBUF, OLEN. -/
def execDecrypt (s : State) : Host.Outcome State Fault Refusal :=
  .next (completeString s
    (rsaDecrypt s.cfg (intOf s .nwin) (intOf s .dwin) (mbufString s) (labelString s)))

end Sys2Proof.Machine
end

