-- ==== Sys2Proof/Machine/ControlCmds.lean ====
section
/-! DEFINITION. The command NOP (44_control R186). The completion of an illegal word (R187) is `completeIllegal` of Ops. -/

namespace Sys2Proof.Machine

/-- NOP (44_control R186): COMPLETE sets ERRCODE to 0, DONE and IDLE, and nothing else. -/
def execNop (s : State) : Host.Outcome State Fault Refusal := .next (finish s 0#4)

end Sys2Proof.Machine
end

