-- ==== Sys2Proof/Machine/MgfCmds.lean ====
section
/-! DEFINITION. The command MGF1 (41_mgf1 R122). -/

namespace Sys2Proof.Machine

/-- The computation part of the MGF1 command (41_mgf1 R122): the document's check first, then this block's capacity. -/
def mgf1Result (c : Config) (seed : Octets) (maskLen : Nat) : Except CoreError Octets :=
  if maskLen > 2 ^ 32 * c.hlen then .error .maskTooLong
  else if maskLen > c.bmax then .error .capacityExceeded
  else mgf c seed maskLen

/-- MGF1 (41_mgf1 R122): `seed = MBUF[0..MLEN)`, `maskLen = ALEN`; result OBUF, OLEN. -/
def execMgf1 (s : State) : Host.Outcome State Fault Refusal :=
  .next (completeString s (mgf1Result s.cfg (mbufString s) (lengthArg s)))

end Sys2Proof.Machine
end

