-- ==== Sys2Proof/Machine/RsaCmds.lean ====
section
/-! DEFINITION. The commands RSAEP, RSADP, RSASP1 and RSAVP1 (43_rsa R155 to R158). -/

namespace Sys2Proof.Machine

/-- RSAEP (43_rsa R155): `m = int(XWIN)`, `n = int(NWIN)`, `e = int(EWIN)`; result YWIN. -/
def execRsaep (s : State) : Host.Outcome State Fault Refusal :=
  .next (completeInt s (prim (intOf s .xwin) (intOf s .ewin) (intOf s .nwin)))

/-- RSADP (43_rsa R156): `c = int(XWIN)`, `n = int(NWIN)`, `d = int(DWIN)`; result YWIN. -/
def execRsadp (s : State) : Host.Outcome State Fault Refusal :=
  .next (completeInt s (prim (intOf s .xwin) (intOf s .dwin) (intOf s .nwin)))

/-- RSASP1 (43_rsa R157): `m = int(XWIN)`, `n = int(NWIN)`, `d = int(DWIN)`; result YWIN. -/
def execRsasp1 (s : State) : Host.Outcome State Fault Refusal :=
  .next (completeInt s (prim (intOf s .xwin) (intOf s .dwin) (intOf s .nwin)))

/-- RSAVP1 (43_rsa R158): `s = int(XWIN)`, `n = int(NWIN)`, `e = int(EWIN)`; result YWIN. -/
def execRsavp1 (s : State) : Host.Outcome State Fault Refusal :=
  .next (completeInt s (prim (intOf s .xwin) (intOf s .ewin) (intOf s .nwin)))

end Sys2Proof.Machine
end

