-- ==== Sys2Proof/Machine/Dispatch.lean ====
section
/-! DEFINITION. The meaning of each command: its COMPLETE step (44_control R184) from a state whose operands are in place. One arm per
command, each one call of its meaning. -/

namespace Sys2Proof.Machine

def exec (i : Instr) (s : State) : Host.Outcome State Fault Refusal :=
  match i with
  | .nop => Sys2Proof.Machine.execNop s
  | .i2osp => Sys2Proof.Machine.execI2osp s
  | .os2ip => Sys2Proof.Machine.execOs2ip s
  | .mgf1 => Sys2Proof.Machine.execMgf1 s
  | .rsaep => Sys2Proof.Machine.execRsaep s
  | .rsadp => Sys2Proof.Machine.execRsadp s
  | .rsasp1 => Sys2Proof.Machine.execRsasp1 s
  | .rsavp1 => Sys2Proof.Machine.execRsavp1 s
  | .oaepEnc => Sys2Proof.Machine.execOaepEnc s
  | .oaepDec => Sys2Proof.Machine.execOaepDec s
  | .encrypt => Sys2Proof.Machine.execEncrypt s
  | .decrypt => Sys2Proof.Machine.execDecrypt s

end Sys2Proof.Machine
end

