-- ==== Sys2Proof/Machine/Flags.lean ====
section
/-! DEFINITION. The three status flags BUSY, DONE, ERR and the words a host reads them in (10_state R36 to R43), and the interrupt
output (R47). -/

namespace Sys2Proof.Machine

/-- STATUS.BUSY: 1 exactly when SEQ is BUSY (10_state R40). -/
def busyFlag (s : State) : Bool := decide (s.seq = .busy)

/-- STATUS.ERR: 1 exactly when ERRCODE is not 0 (10_state R40). -/
def errFlag (s : State) : Bool := decide (s.errcode ≠ 0#4)

/-- `irq = CTRL.IE and STATUS.DONE` (10_state R47, 60_exceptions R210). -/
def irq (s : State) : Bool := s.ie && s.done

/-- STATUS as the host reads it (10_state R40): OPC in 23:16, ERRCODE in 11:8, ERR, DONE, BUSY in 2:0, the rest zero. -/
def statusWord (s : State) : Word :=
  0#8 ++ s.cmdr.extractLsb' 0 8 ++ 0#4 ++ s.errcode ++ 0#5 ++ BitVec.ofBool (errFlag s) ++ BitVec.ofBool s.done ++
    BitVec.ofBool (busyFlag s)

/-- CTRL as the host reads it (10_state R39): IE in bit 0; SRST and the reserved bits read 0. -/
def ctrlWord (s : State) : Word := 0#31 ++ BitVec.ofBool s.ie

/-- ID (10_state R36). -/
def idWord : Word := 0x504B4331#32

/-- CAP0 (10_state R37): KMAX in 15:0, BMAX in 31:16. -/
def cap0Word (c : Config) : Word := BitVec.ofNat 16 c.bmax ++ BitVec.ofNat 16 c.kmax

/-- CAP1 (10_state R38): LMAX in 15:0, HLEN in 23:16. -/
def cap1Word (c : Config) : Word := 0#8 ++ BitVec.ofNat 8 c.hlen ++ BitVec.ofNat 16 c.lmax

end Sys2Proof.Machine
end

