-- ==== Sys2Proof/Machine/HostPort.lean ====
section
/-! DEFINITION. The host port: HostRead (20_memory R62) and HostWrite (R63), branch by branch as the spec writes them. -/

namespace Sys2Proof.Machine

/-- `ERR`, data 0 (20_memory R60). -/
def refusedRead : Resp × Word := (.err, 0#32)

/-- The registers a host reads (20_memory R62, the `case`): the control block and the operand block. -/
def readRegister (s : State) (addr : Nat) : Resp × Word :=
  match addr with
  | 0x0000 => (.okay, idWord)
  | 0x0004 => (.okay, cap0Word s.cfg)
  | 0x0008 => (.okay, cap1Word s.cfg)
  | 0x000C => (.okay, ctrlWord s)
  | 0x0010 => (.okay, statusWord s)
  | 0x0014 => (.okay, 0#32)
  | 0x0020 => (.okay, s.alen.extractLsb' 0 32)
  | 0x0024 => (.okay, s.alen.extractLsb' 32 32)
  | 0x0028 => (.okay, s.mlen)
  | 0x002C => (.okay, s.llen)
  | 0x0030 => (.okay, s.olen)
  | 0x0034 => (.okay, BitVec.ofNat 32 (kOf s))
  | _ => refusedRead

/-- A host read of a window (20_memory R62, from the page on): refused while BUSY (R66), beyond the capacity (R69); DWIN reads 0
(R70); otherwise the octets as one big-endian number (R65). -/
def readWindow (s : State) (addr n : Nat) : Resp × Word :=
  match windowOfPage (addr / 0x1000) with
  | none => refusedRead
  | some w =>
    if s.seq = .busy then refusedRead
    else if addr % 0x1000 + n > windowCap s.cfg w then refusedRead
    else if w = .dwin then (.okay, 0#32)
    else (.okay, BitVec.ofNat 32 (os2ip (Memory.readBytes s.mem addr n)))

/-- `HostRead(addr, n)` (20_memory R62). -/
def hostRead (s : State) (addr n : Nat) : Resp × Word :=
  if ¬(n = 1 ∨ n = 4) ∨ addr % n ≠ 0 ∨ addr > 0xFFFF then refusedRead
  else if addr < 0x1000 then
    if n ≠ 4 then refusedRead
    else if addr ≥ 0x0020 ∧ s.seq = .busy then refusedRead
    else readRegister s addr
  else readWindow s addr n

/-- Writes of the control block (20_memory R63, first `case`): CTRL, STATUS and CMD. `none` where no such register is. -/
def writeControl (s : State) (addr : Nat) (v : Word) : Option (Resp × State) :=
  match addr with
  | 0x000C =>
    if v.getLsbD 1 then some (.okay, resetBlock s) else some (.okay, { s with ie := v.getLsbD 0 })
  | 0x0010 => some (.okay, if v.getLsbD 1 then clearDone s else s)
  | 0x0014 => if s.seq = .busy then some (.err, s) else some (.okay, issue s v)
  | _ => none

/-- Writes of the operand block (20_memory R63, second `case`): the halves of ALEN, MLEN and LLEN with their ranges (R68); all else is
read-only or reserved (R69). -/
def writeOperand (s : State) (addr : Nat) (v : Word) : Resp × State :=
  match addr with
  | 0x0020 => (.okay, { s with alen := s.alen.extractLsb' 32 32 ++ v })
  | 0x0024 => (.okay, { s with alen := v ++ s.alen.extractLsb' 0 32 })
  | 0x0028 => if v.toNat > s.cfg.bmax then (.err, s) else (.okay, { s with mlen := v })
  | 0x002C => if v.toNat > s.cfg.lmax then (.err, s) else (.okay, { s with llen := v })
  | _ => (.err, s)

/-- A host write of a window (20_memory R63, from the page on): refused while BUSY (R66), beyond the capacity, and where read-only
(R69); otherwise `W[j .. j+n) <- I2OSP(v, n)`; a 1-octet write stores `v[7:0]` (44_control R189; log 16). -/
def writeWindow (s : State) (addr n : Nat) (v : Word) : Resp × State :=
  match windowOfPage (addr / 0x1000) with
  | none => (.err, s)
  | some w =>
    if s.seq = .busy then (.err, s)
    else if addr % 0x1000 + n > windowCap s.cfg w then (.err, s)
    else if w = .ywin ∨ w = .obuf then (.err, s)
    else (.okay, { s with mem := Memory.writeBytes s.mem addr (octetsOf v.toNat n) })

/-- `HostWrite(addr, n, v)` (20_memory R63). -/
def hostWrite (s : State) (addr n : Nat) (v : Word) : Resp × State :=
  if ¬(n = 1 ∨ n = 4) ∨ addr % n ≠ 0 ∨ addr > 0xFFFF then (.err, s)
  else if addr < 0x1000 then
    if n ≠ 4 then (.err, s)
    else
      match writeControl s addr v with
      | some r => r
      | none => if addr ≥ 0x0020 ∧ s.seq = .busy then (.err, s) else writeOperand s addr v
  else writeWindow s addr n v

end Sys2Proof.Machine
end

