-- ==== Sys2Proof/Machine/Sequencer.lean ====
section
/-! DEFINITION. The steps of 44_control R180: COMPLETE of the command in flight (R184), host read, host write and hardware reset, and
which of them the outside world makes next (log 6 to 9). -/

namespace Sys2Proof.Machine

/-- `Complete` (44_control R184): the command CMDR names, or R187 for an illegal word. -/
def complete (s : State) : Host.Outcome State Fault Refusal :=
  match decode s.cmdr with
  | some i => exec i s
  | none => .next (completeIllegal s)

/-- The core sequencer's move: COMPLETE when BUSY; "the core takes no step while SEQ = IDLE" (44_control R180; log 9). -/
def coreMove (s : State) : Host.Outcome State Fault Refusal :=
  match s.seq with
  | .busy => complete s
  | .idle => .next s

/-- The outside world's next move is taken off its agenda. -/
def dropEvent (s : State) : State := { s with env := { s.env with agenda := s.env.agenda.tail } }

/-- The block's answer to a host transaction is recorded (log 10). -/
def record (s : State) (a : Answer) : State := { s with env := { s.env with answers := a :: s.env.answers } }

/-- A host read as a step: no state of the block changes (20_memory R62, R71). -/
def readStep (s : State) (addr n : Nat) : State :=
  let r := hostRead s addr n
  record s (.read r.1 r.2)

/-- A host write as a step (20_memory R63). -/
def writeStep (s : State) (addr n : Nat) (v : Word) : State :=
  let r := hostWrite s addr n v
  record r.2 (.written r.1)

/-- One step of 44_control R180. `s` is the state with the event already off the agenda. -/
def eventStep (s : State) : Event → Host.Outcome State Fault Refusal
  | .hostRead addr n => .next (readStep s addr n)
  | .hostWrite addr n v => .next (writeStep s addr n v)
  | .coreTurn => coreMove s
  | .hardReset => .next (resetBlock s)

/-- The next step: the agenda's first event; with nothing on the agenda the core moves, so that a command in flight completes
(44_control R183; log 8) and an IDLE block stays as it is (log 7). -/
def nextStep (s : State) : Host.Outcome State Fault Refusal :=
  match s.env.agenda with
  | [] => coreMove s
  | e :: _ => eventStep (dropEvent s) e

/-- The agenda with the core's turn before whatever else is on it. -/
def coreFirst : List Event → List Event
  | [] => []
  | e :: es => .coreTurn :: e :: es

/-- Command word `w` in flight, as ISSUE leaves it (44_control R181), and the core to move next (log 11). -/
def placeCommand (s : State) (w : Word) : State :=
  { issue s w with env := { s.env with agenda := coreFirst s.env.agenda } }

end Sys2Proof.Machine
end

