-- ==== Sys2Proof/Machine/Step.lean ====
section
/-! DEFINITION. One step of the machine (44_control R180), and how a command word comes to be the one the next step runs. -/

namespace Sys2Proof.Machine

/-- One step of the machine (44_control R180). -/
def step (s : State) : Host.Outcome State Fault Refusal := nextStep s

/-- `s` with the command word `w` (its `nbits` low bits; every bit above them zero) issued and the core to move, so that the next
step runs exactly it (log 11). -/
def State.withFetchWord (s : State) (nbits w : Nat) : State := placeCommand s (BitVec.ofNat 32 (w % 2 ^ nbits))

end Sys2Proof.Machine
end

