-- ==== Sys2Proof/Machine/Reduction.lean ====
section
/-! DEFINITION. The two techniques 43_rsa R154 names for the modular products of R153's loop, as the rule defines them. Neither is
architectural (R154; log 21): no register holds their constants and no command's meaning calls them; their contract is that the result is
the reduced product. -/

namespace Sys2Proof.Machine

/-- Subtract `n` once if it fits: the corrective subtraction of both techniques (43_rsa R154). -/
def subOnce (n r : Nat) : Nat := if n ≤ r then r - n else r

/-- Barrett reduction of `t < n^2`, for `n >= 1` (43_rsa R154): `w = bitlen(n)`, `mu = floor(2^(2w) / n)`, the estimate `q`, then at
most two corrective subtractions. -/
def barrett (n t : Nat) : Nat :=
  let w := bitLen n
  let mu := 2 ^ (2 * w) / n
  let q := t / 2 ^ (w - 1) * mu / 2 ^ (w + 1)
  subOnce n (subOnce n (t - q * n))

/-- `n' = -n^(-1) mod 2^w` for odd `n` (43_rsa R154), one bit at a time from the lowest. -/
def negInv (n : Nat) : (w : Nat) → Nat
  | 0 => 0
  | w + 1 =>
    let x := negInv n w
    if (x * n + 1) % 2 ^ (w + 1) = 0 then x else x + 2 ^ w

/-- `MontMul(a, b) = a * b * R^(-1) mod n`, for odd `n` and `R = 2^w > n` (43_rsa R154): the product is made divisible by `R` by adding
a multiple of `n`, divided, and corrected. -/
def montMul (n w a b : Nat) : Nat :=
  let t := a * b
  let m := t % 2 ^ w * negInv n w % 2 ^ w
  subOnce n ((t + m * n) / 2 ^ w)

end Sys2Proof.Machine
end

