-- ==== Sys2Proof/Safety.lean ====
section
/-! DEFINITION. What counts as a safe run, in the terms the claims use: the invariants of 10_state R50, what a command may leave
unchanged, what it leaves in its outputs, and which code it must report (60_exceptions R212). -/

namespace Sys2Proof.Machine

/-! ### Reachable states -/

/-- The invariants of 10_state R50, with the constraints on the parameters (00_scope R7) and the form of the model's memory: canonical,
and no cell outside the windows (20_memory R61). -/
structure Inv (s : State) : Prop where
  cfg_valid : s.cfg.Valid
  mlen_le : s.mlen.toNat ≤ s.cfg.bmax
  llen_le : s.llen.toNat ≤ s.cfg.lmax
  olen_le : s.olen.toNat ≤ s.cfg.bmax
  obuf_tail : ∀ i, s.olen.toNat ≤ i → i < s.cfg.bmax → Memory.read s.mem (windowBase .obuf + i) = 0x00#8
  not_busy_done : ¬(s.seq = .busy ∧ s.done = true)
  errcode_known : s.errcode.toNat ≤ 8
  busy_clean : s.seq = .busy → s.done = false ∧ s.errcode = 0#4
  idle_scratch : s.seq = .idle → s.scratch = Scratch.zero
  mem_wf : Memory.wf s.mem
  mem_mapped : ∀ c ∈ s.mem, ∃ w, inWindow s.cfg w c.1 = true

/-- The next step is the core's: nothing is on the agenda, or its turn is first (log 6, 8). -/
def coreToMove (s : State) : Prop := s.env.agenda = [] ∨ ∃ es, s.env.agenda = .coreTurn :: es

/-- Every stored item of the block is zero, SEQ is IDLE, and what is derived from them reads zero (10_state R51). -/
def AllZero (t : State) : Prop :=
  (∀ a, Memory.read t.mem a = 0x00#8) ∧
  t.alen = 0#64 ∧ t.mlen = 0#32 ∧ t.llen = 0#32 ∧ t.olen = 0#32 ∧ t.ie = false ∧ t.seq = .idle ∧ t.cmdr = 0#32 ∧
  t.done = false ∧ t.errcode = 0#4 ∧ t.scratch = Scratch.zero ∧
  intOf t .nwin = 0 ∧ intOf t .ewin = 0 ∧ intOf t .dwin = 0 ∧ intOf t .xwin = 0 ∧ kOf t = 0 ∧
  statusWord t = 0#32 ∧ irq t = false

/-! ### What a command leaves -/

/-- `t` is the block of `s`, whatever happened in the world outside it. -/
def SameBlock (s t : State) : Prop := { t with env := s.env } = s

/-- An octet of an output window: OBUF or YWIN. -/
def inOutput (c : Config) (a : Nat) : Bool := inWindow c .obuf a || inWindow c .ywin a

/-- Everything COMPLETE never changes (44_control R184): the parameters, ALEN, MLEN, LLEN, CTRL, CMDR, and every octet outside OBUF and
YWIN: so NWIN, EWIN, DWIN, XWIN, MBUF and LBUF. -/
def KeepsOperands (s t : State) : Prop :=
  t.cfg = s.cfg ∧ t.alen = s.alen ∧ t.mlen = s.mlen ∧ t.llen = s.llen ∧ t.ie = s.ie ∧ t.cmdr = s.cmdr ∧
  ∀ a, inOutput s.cfg a = false → Memory.read t.mem a = Memory.read s.mem a

/-- The end of COMPLETE with this code (44_control R184): DONE, IDLE, scratch zero. -/
def Ended (t : State) (code : BitVec 4) : Prop :=
  t.seq = .idle ∧ t.done = true ∧ t.errcode = code ∧ t.scratch = Scratch.zero

/-- OBUF, OLEN and YWIN all zero (44_control R185). -/
def OutputsZero (t : State) : Prop :=
  t.olen = 0#32 ∧ ∀ a, inOutput t.cfg a = true → Memory.read t.mem a = 0x00#8

/-- A success with an octet-string result: OBUF holds it from its start, OLEN its length, OBUF beyond it and YWIN are zero (44_control
R185, 10_state R30). -/
def StringResult (t : State) (xs : Octets) : Prop :=
  Ended t 0#4 ∧ t.olen.toNat = xs.length ∧ obufString t = xs ∧
  (∀ a, inWindow t.cfg .obuf a = true → windowBase .obuf + xs.length ≤ a → Memory.read t.mem a = 0x00#8) ∧
  ∀ a, inWindow t.cfg .ywin a = true → Memory.read t.mem a = 0x00#8

/-- A success with an integer result: YWIN holds it, OBUF and OLEN are zero (44_control R185, 10_state R27). -/
def IntResult (t : State) (v : Nat) : Prop :=
  Ended t 0#4 ∧ intOf t .ywin = v ∧ t.olen = 0#32 ∧
  ∀ a, inWindow t.cfg .obuf a = true → Memory.read t.mem a = 0x00#8

/-- A command ended by an error (60_exceptions R201): its code recorded, the outputs zero. -/
def ErrorResult (t : State) (e : CoreError) : Prop := Ended t (errorCode e) ∧ OutputsZero t

/-! ### What an encoding is -/

/-- `em` is `0x00`, then `seed XOR MGF(maskedDB, hLen)`, then `maskedDB = db XOR MGF(seed, k - hLen - 1)`, octet by octet (42_oaep R131
steps 6 to 8). -/
def Masked (c : Config) (k : Nat) (seed db em : Octets) : Prop :=
  em.length = k ∧ em.getD 0 0xFF#8 = 0x00#8 ∧
  ∃ dbMask seedMask : Octets,
    mgf c seed (k - c.hlen - 1) = .ok dbMask ∧ mgf c (em.drop (c.hlen + 1)) c.hlen = .ok seedMask ∧
    (∀ i, i < c.hlen → em.getD (1 + i) 0x00#8 = seed.getD i 0x00#8 ^^^ seedMask.getD i 0x00#8) ∧
    ∀ i, i < k - c.hlen - 1 → em.getD (1 + c.hlen + i) 0x00#8 = db.getD i 0x00#8 ^^^ dbMask.getD i 0x00#8

/-! ### Which code a command reports -/

/-- The code of 60_exceptions R212: the first cause in the command's own order, on the values its operands hold. -/
def expectedCode (s : State) : Instr → BitVec 4
  | .nop => 0#4
  | .i2osp =>
    if 256 ^ lengthArg s ≤ intOf s .xwin then 2#4 else if s.cfg.bmax < lengthArg s then 8#4 else 0#4
  | .os2ip => if 256 ^ s.cfg.kmax ≤ os2ip (mbufString s) then 8#4 else 0#4
  | .mgf1 =>
    if 2 ^ 32 * s.cfg.hlen < lengthArg s then 6#4 else if s.cfg.bmax < lengthArg s then 8#4 else 0#4
  | .rsaep | .rsadp | .rsasp1 | .rsavp1 => if intOf s .nwin ≤ intOf s .xwin then 3#4 else 0#4
  | .oaepEnc | .encrypt =>
    if kOf s < s.mlen.toNat + 2 * s.cfg.hlen + 2 then 1#4 else if drawAnswer s = none then 5#4 else 0#4
  | .oaepDec =>
    match oaepDecode s.cfg (intOf s .nwin) (mbufString s) (labelString s) with
    | .ok _ => 0#4
    | .error _ => 4#4
  | .decrypt =>
    if s.mlen.toNat ≠ kOf s then 4#4
    else if intOf s .nwin ≤ os2ip (mbufString s) then 3#4
    else
      match oaepDecode s.cfg (intOf s .nwin)
        (octetsOf (os2ip (mbufString s) ^ intOf s .dwin % intOf s .nwin) (kOf s)) (labelString s) with
      | .ok _ => 0#4
      | .error _ => 4#4

/-! ### What the secret exponent may influence -/

/-- Two states that differ at most in the octets of DWIN. -/
def SameButD (s t : State) : Prop :=
  { t with mem := s.mem } = s ∧
  ∀ a, inWindow s.cfg .dwin a = false → Memory.read s.mem a = Memory.read t.mem a

/-- The next step completes one of the three commands that read DWIN (10_state R25). -/
def completesWithD (s : State) : Prop :=
  s.seq = .busy ∧ coreToMove s ∧
  (decode s.cmdr = some .rsadp ∨ decode s.cmdr = some .rsasp1 ∨ decode s.cmdr = some .decrypt)

/-- A run of `k` steps from `s` never stops. -/
def RunsFor : (k : Nat) → (s : State) → Prop
  | 0, _ => True
  | k + 1, s => ∃ t, step s = .next t ∧ RunsFor k t

end Sys2Proof.Machine
end

