-- ==== Sys2Proof/Certificates/Slice0/Obligations.lean ====
section
/-! DEFINITION. The statements about the model, for the provers. Each docstring names the rules of spec/ it formalises. -/

open Sys2Proof Sys2Proof.Machine

/-! ### Reset -/

/-- 10_state R51: after hardware reset and after soft reset every stored item of R20 is zero, SEQ is IDLE, and so N, E, D, X, K, STATUS and
irq are zero; and so it is in the state the machine starts from. -/
def Obligations.ResetIsAllZero : Prop :=
  AllZero State.reset ∧
  (∀ s t, eventStep s .hardReset = .next t → AllZero t) ∧
  (∀ s v r t, v.getLsbD 1 = true → hostWrite s 0x000C 4 v = (r, t) → AllZero t)

/-- 70_reset R232: a 4-octet write to CTRL with bit 1 set performs the state change of hardware reset in any state, IDLE or BUSY, and is
answered OKAY; bit 0 of the same write is ignored, so IE is 0. That the build parameters and the world outside the block stay is the
model's reading (log 19). -/
def Obligations.SoftResetAnswersOkayAndWipes : Prop :=
  ∀ (s : State) (v : Word), v.getLsbD 1 = true →
    ∃ t, hostWrite s 0x000C 4 v = (.okay, t) ∧ AllZero t ∧ t.ie = false ∧ t.cfg = s.cfg ∧ t.env = s.env ∧
      eventStep s .hardReset = .next t

/-! ### Decoding -/

/-- 30_encoding R91: a word is illegal exactly when its bits 31:8 are not zero or its bits 7:0 are none of the twelve opcodes, and
otherwise it is the command of its opcode. -/
def Obligations.DecodeIsTotalAndExact : Prop :=
  (∀ w : Word, decode w = none ↔
    (w.toNat / 256 ≠ 0 ∨ w.toNat % 256 ∉ [0x00, 0x01, 0x02, 0x03, 0x10, 0x11, 0x12, 0x13, 0x20, 0x21, 0x30, 0x31])) ∧
  ∀ (w : Word) (i : Instr), decode w = some i → w.toNat = (opcodeOf i).toNat

/-- 30_encoding R92: the twelve words, written out from the table, decode to their commands. -/
def Obligations.TwelveWordsDecode : Prop :=
  decode 0x00000000#32 = some .nop ∧ decode 0x00000001#32 = some .i2osp ∧ decode 0x00000002#32 = some .os2ip ∧
  decode 0x00000003#32 = some .mgf1 ∧ decode 0x00000010#32 = some .rsaep ∧ decode 0x00000011#32 = some .rsadp ∧
  decode 0x00000012#32 = some .rsasp1 ∧ decode 0x00000013#32 = some .rsavp1 ∧ decode 0x00000020#32 = some .oaepEnc ∧
  decode 0x00000021#32 = some .oaepDec ∧ decode 0x00000030#32 = some .encrypt ∧ decode 0x00000031#32 = some .decrypt

/-- Decode and encode agree both ways (30_encoding R91, R92): a word decodes to a command exactly when it is that command's word, so each
command has one word and no bit is dropped. -/
def Obligations.DecodeEncodeAgree : Prop := ∀ (i : Instr) (w : Word), decode w = some i ↔ w = encode i

/-! ### The step -/

/-- 44_control R180, R184: the step takes the first event off the agenda and makes it (log 6); with an empty agenda the core moves (log 8).
The core's move, when a command is in flight, is COMPLETE of the command CMDR decodes to, and of an illegal word R187's; in an IDLE block
it changes nothing (log 9), so an IDLE block with an empty agenda stays as it is (log 7); and the command word the host's check places is
run by the very next step (log 11). -/
def Obligations.StepRunsDecodedCommand : Prop :=
  (∀ (s : State) (e : Event) (es : List Event), s.env.agenda = e :: es → step s = eventStep (dropEvent s) e) ∧
  (∀ s : State, s.env.agenda = [] → step s = eventStep s .coreTurn) ∧
  (∀ (s : State) (i : Instr), s.seq = .busy → decode s.cmdr = some i → eventStep s .coreTurn = exec i s) ∧
  (∀ s : State, s.seq = .busy → decode s.cmdr = none → eventStep s .coreTurn = .next (completeIllegal s)) ∧
  (∀ s : State, s.seq = .idle → eventStep s .coreTurn = .next s) ∧
  ∀ (s : State) (w : Nat) (i : Instr), w < 2 ^ 32 → decodeTableWord 32 w = some i →
    step (s.withFetchWord 32 w) = exec i (issue s (BitVec.ofNat 32 w))

/-- 60_exceptions R202: there is no input for which the block hangs, locks up or stops: from every state, reachable or not, every run goes
on for any number of steps. -/
def Obligations.NoRunEverStops : Prop := ∀ (k : Nat) (s : State), RunsFor k s

/-- 44_control R181: a 4-octet write to CMD while IDLE latches the word, legal or not, sets BUSY, clears DONE and ERRCODE, changes nothing
else and is answered OKAY. -/
def Obligations.IssueLatchesTheWord : Prop :=
  ∀ (s : State) (w : Word), s.seq = .idle →
    hostWrite s 0x0014 4 w = (.okay, { s with cmdr := w, seq := .busy, done := false, errcode := 0#4 })

/-- 44_control R187: an illegal word is issued as any other; COMPLETE then sets ERRCODE 7, DONE and IDLE and changes nothing else (scratch is
zero as after any COMPLETE); the randomness port is not asked. The two worked examples give the two STATUS words. -/
def Obligations.IllegalWordCompletesWithCodeSeven : Prop :=
  (∀ (s : State) (w : Word), s.seq = .idle → decode w = none →
    ∃ u, hostWrite s 0x0014 4 w = (.okay, u) ∧
      u = { s with cmdr := w, seq := .busy, done := false, errcode := 0#4 } ∧
      (statusWord u).toNat = 1 + (w.toNat % 256) * 2 ^ 16 ∧
      complete u = .next { u with errcode := 7#4, done := true, seq := .idle, scratch := Scratch.zero }) ∧
  (∃ u t, hostWrite State.reset 0x0014 4 0x00000004#32 = (.okay, u) ∧ complete u = .next t ∧ statusWord t = 0x00040706#32) ∧
  ∃ u t, hostWrite State.reset 0x0014 4 0x00000110#32 = (.okay, u) ∧ complete u = .next t ∧ statusWord t = 0x00100706#32

/-- 44_control R182: between ISSUE and COMPLETE the block changes only by a write of IE or by a reset: while BUSY every step that is not the
core's leaves the block as it was, but for IE, or all zero. -/
def Obligations.BusyBlockChangesOnlyByControl : Prop :=
  ∀ (s t : State) (e : Event), Inv s → s.seq = .busy → e ≠ .coreTurn → eventStep s e = .next t →
    SameBlock s t ∨
    (∃ v n, e = .hostWrite 0x000C n v ∧ v.getLsbD 1 = false ∧ SameBlock { s with ie := v.getLsbD 0 } t) ∨
    (AllZero t ∧ (e = .hardReset ∨ ∃ v n, e = .hostWrite 0x000C n v ∧ v.getLsbD 1 = true))

/-! ### Invariants -/

/-- The state after reset meets the invariants of 10_state R50. -/
def Obligations.ResetMeetsTheInvariants : Prop := Inv State.reset

/-- 10_state R50: every step, of any agent, from any state that meets the invariants gives a state that meets them. -/
def Obligations.EveryStepKeepsTheInvariants : Prop := ∀ (s t : State), Inv s → step s = .next t → Inv t

/-- 10_state R23 to R29, R31 to R33 and 44_control R184: the keys, the operands, the length registers and IE are written only by the host and
by reset: any other step leaves them as they were. -/
def Obligations.OnlyHostAndResetWriteOperands : Prop :=
  ∀ (s t : State), s.cfg.Valid → step s = .next t →
    (∀ es a n v, s.env.agenda ≠ .hostWrite a n v :: es) → (∀ es, s.env.agenda ≠ .hardReset :: es) → KeepsOperands s t

/-- 10_state R25: the value of D influences what the host can see only through RSADP, RSASP1 and DECRYPT: two states that differ at most in
DWIN take the same step to states that differ at most in DWIN, with the same answers to the host, unless the step completes one of the
three. -/
def Obligations.SecretExponentInfluencesNothingElse : Prop :=
  ∀ (s t s' t' : State), s.cfg.Valid → SameButD s t → ¬completesWithD s → step s = .next s' → step t = .next t' →
    SameButD s' t'

/-! ### The function layer -/

/-- 40_codec R110: I2OSP fails with IntegerTooLarge exactly when the integer exceeds the width, and otherwise gives exactly `length` octets,
each the base-256 digit of its place, most significant first. -/
def Obligations.I2ospMatchesItsFormula : Prop :=
  ∀ x len : Nat,
    (x ≥ 256 ^ len → i2osp x len = .error .integerTooLarge) ∧
    (x < 256 ^ len → ∃ xs : Octets, i2osp x len = .ok xs ∧ xs.length = len ∧
      ∀ i : Nat, i < len → (xs.getD i 0#8).toNat = x / 256 ^ (len - 1 - i) % 256)

/-- 40_codec R111: OS2IP is the sum of the octets times the powers of 256, 0 for the empty string, unchanged by leading zero octets, and
below `256^len(X)`. -/
def Obligations.Os2ipMatchesItsFormula : Prop :=
  os2ip [] = 0 ∧
  ∀ xs : Octets,
    os2ip xs = ((List.range xs.length).map (fun i => (xs.getD i 0#8).toNat * 256 ^ (xs.length - 1 - i))).sum ∧
    os2ip (0x00#8 :: xs) = os2ip xs ∧ os2ip xs < 256 ^ xs.length

/-- 40_codec R114: I2OSP and OS2IP undo each other. -/
def Obligations.CodecFunctionsAreInverse : Prop :=
  (∀ x len : Nat, x < 256 ^ len → ∃ xs, i2osp x len = .ok xs ∧ os2ip xs = x) ∧
  ∀ xs : Octets, i2osp (os2ip xs) xs.length = .ok xs

/-- 41_mgf1 R120: beyond `2^32 * hLen` octets MGF fails with MaskTooLong; otherwise it gives exactly `maskLen` octets, and octet `j` is octet
`j mod hLen` of `Hash(seed ‖ I2OSP(j div hLen, 4))`. -/
def Obligations.MgfIsTheHashChain : Prop :=
  ∀ (c : Config) (seed : Octets) (maskLen : Nat), c.Valid →
    (maskLen > 2 ^ 32 * c.hlen → mgf c seed maskLen = .error .maskTooLong) ∧
    (maskLen ≤ 2 ^ 32 * c.hlen → ∃ t : Octets, mgf c seed maskLen = .ok t ∧ t.length = maskLen ∧
      ∀ j : Nat, j < maskLen → ∃ ctr : Octets, i2osp (j / c.hlen) 4 = .ok ctr ∧
        t.getD j 0#8 = (hash c (seed ++ ctr)).getD (j % c.hlen) 0#8)

/-- 41_mgf1 R123 (b): a shorter mask is the beginning of a longer one. -/
def Obligations.ShorterMaskBeginsLongerMask : Prop :=
  ∀ (c : Config) (seed ta tb : Octets) (a b : Nat), c.Valid → a ≤ b → mgf c seed a = .ok ta → mgf c seed b = .ok tb →
    ta = tb.take a

/-- 43_rsa R150: for `n >= 1`, ModExp is the mathematical value `b^x mod n`, below `n`, for every base, exponent and modulus, even ones
included. -/
def Obligations.ModExpIsThePower : Prop := ∀ b x n : Nat, 1 ≤ n → modExp b x n = b ^ x % n ∧ modExp b x n < n

/-- 43_rsa R151: exponent 0, base 0 and 1, modulus 1, exponent 1. -/
def Obligations.ModExpAtZeroAndOne : Prop :=
  (∀ b n : Nat, 1 ≤ n → modExp b 0 n = 1 % n) ∧ (∀ b n : Nat, 2 ≤ n → modExp b 0 n = 1) ∧ (∀ b : Nat, modExp b 0 1 = 0) ∧
  (∀ x n : Nat, 1 ≤ n → 1 ≤ x → modExp 0 x n = 0) ∧ (∀ x n : Nat, 1 ≤ n → modExp 1 x n = 1 % n) ∧
  (∀ b x : Nat, modExp b x 1 = 0) ∧ ∀ b n : Nat, 1 ≤ n → modExp b 1 n = b % n

/-- 43_rsa R154: the model's functions for the rule's two techniques, which no command's meaning calls and whose Montgomery quotient is the
model's own (log 21), are exact: Barrett's estimate with at most two corrections is `t mod n` for every
`n >= 1`, even ones included; Montgomery's product, for odd `n` below `R = 2^w`, is the residue below `n` whose product with `R` is `a * b`
modulo `n`, and converting in by `R^2 mod n` and out by 1 gives the operand back. -/
def Obligations.ReductionTechniquesAreExact : Prop :=
  (∀ n t : Nat, 1 ≤ n → t < n * n → barrett n t = t % n) ∧
  ∀ n w a b : Nat, n % 2 = 1 → n < 2 ^ w → a < n → b < n →
    montMul n w a b < n ∧ montMul n w a b * 2 ^ w % n = a * b % n ∧
    (1 < n → montMul n w (montMul n w a (2 ^ (2 * w) % n)) 1 = a)

/-- 43_rsa R152: all four primitives reject `v >= n`, so everything when `n = 0`, and otherwise give `v^x mod n`. -/
def Obligations.PrimitiveRangeRule : Prop :=
  ∀ v x n : Nat,
    (n ≤ v → prim v x n = .error .messageRepresentativeOutOfRange) ∧ (v < n → prim v x n = .ok (v ^ x % n)) ∧
    prim v x 0 = .error .messageRepresentativeOutOfRange

/-- 43_rsa R159: the source's toy key, and the two intermediate values. -/
def Obligations.ToyKeyIdentity : Prop :=
  prim 42 17 3233 = .ok 2557 ∧ prim 2557 413 3233 = .ok 42 ∧ prim 84 413 3233 = .ok 2046 ∧ prim 2046 17 3233 = .ok 84

/-- 42_oaep R131: a message over the capacity is MessageTooLong, else a source without an answer is RandomnessUnavailable, else the encoding
succeeds: it is `0x00`, the seed masked by `MGF(maskedDB, hLen)`, and the data block `lHash ‖ PS ‖ 0x01 ‖ M` masked by
`MGF(seed, k - hLen - 1)`, and so is the masking of any data block. R132: (a) below `k = 2*hLen + 2` every message is too long; (b) the
largest message is `k - 2*hLen - 2` octets; (c) EM has `k` octets, begins with `0x00` and is a number below `256^(k-1)`; (d) EM depends on
N only through its byte length; (e) no call of MGF raises: the only errors are MessageTooLong and RandomnessUnavailable; (f) the label
enters only through its hash. -/
def Obligations.OaepEncodeConsequences : Prop :=
  ∀ (c : Config) (n : Nat) (m l : Octets) (draw : Option Octets), c.Valid → byteLen n ≤ c.kmax →
    (∀ seed, draw = some seed → seed.length = c.hlen) →
    (byteLen n < 2 * c.hlen + 2 → oaepEncode c n m l draw = .error .messageTooLong) ∧
    (oaepEncode c n m l draw = .error .messageTooLong ↔ byteLen n < m.length + 2 * c.hlen + 2) ∧
    (m.length + 2 * c.hlen + 2 ≤ byteLen n → draw = none → oaepEncode c n m l draw = .error .randomnessUnavailable) ∧
    (∀ seed, m.length + 2 * c.hlen + 2 ≤ byteLen n → draw = some seed →
      ∃ em, oaepEncode c n m l draw = .ok em ∧
        Masked c (byteLen n) seed (hash c l ++ zeros (byteLen n - m.length - 2 * c.hlen - 2) ++ [0x01#8] ++ m) em) ∧
    (∀ seed db, 2 * c.hlen + 2 ≤ byteLen n → draw = some seed → db.length = byteLen n - c.hlen - 1 →
      ∃ em, oaepMask c (byteLen n) seed db = .ok em ∧ Masked c (byteLen n) seed db em) ∧
    (∀ em, oaepEncode c n m l draw = .ok em →
      em.length = byteLen n ∧ em.getD 0 0xFF#8 = 0x00#8 ∧ os2ip em < 256 ^ (byteLen n - 1)) ∧
    (∀ n', byteLen n' = byteLen n → oaepEncode c n' m l draw = oaepEncode c n m l draw) ∧
    (∀ e, oaepEncode c n m l draw = .error e → e = .messageTooLong ∨ (e = .randomnessUnavailable ∧ draw = none)) ∧
    ∀ l', hash c l' = hash c l → oaepEncode c n m l' draw = oaepEncode c n m l draw

/-- 42_oaep R139: round trip: decoding an encoding gives the message, for every message within the capacity, label and seed. -/
def Obligations.OaepRoundTrip : Prop :=
  ∀ (c : Config) (n : Nat) (m l seed : Octets), c.Valid → byteLen n ≤ c.kmax → seed.length = c.hlen →
    m.length + 2 * c.hlen + 2 ≤ byteLen n →
    ∃ em, oaepEncode c n m l (some seed) = .ok em ∧ oaepDecode c n em l = .ok m

/-- 42_oaep R140: label binding: an encoding under one label decodes under another exactly when their hashes agree; otherwise it is
DecodingError. -/
def Obligations.LabelBinding : Prop :=
  ∀ (c : Config) (n : Nat) (m l1 l2 seed em : Octets), c.Valid → byteLen n ≤ c.kmax → seed.length = c.hlen →
    oaepEncode c n m l1 (some seed) = .ok em →
    (hash c l1 ≠ hash c l2 → oaepDecode c n em l2 = .error .decodingError) ∧
    (hash c l1 = hash c l2 → oaepDecode c n em l2 = .ok m)

/-- 42_oaep R135, R136: the decoder accepts exactly the well-formed blocks: for an EM made from any data block of the right length, it
returns `m` exactly when the data block is the label's hash, zero octets, one `0x01`, and `m`. -/
def Obligations.DecoderAcceptsExactlyPaddedBlocks : Prop :=
  ∀ (c : Config) (n : Nat) (l seed db em m : Octets), c.Valid → byteLen n ≤ c.kmax → 2 * c.hlen + 2 ≤ byteLen n →
    seed.length = c.hlen → db.length = byteLen n - c.hlen - 1 → oaepMask c (byteLen n) seed db = .ok em →
    (oaepDecode c n em l = .ok m ↔ ∃ p, db = hash c l ++ zeros p ++ [0x01#8] ++ m)

/-- 42_oaep R135 steps 1 and 2, R141: a string of another length, a modulus too short, or a first octet that is not `0x00` is
DecodingError, and no other error is ever raised. -/
def Obligations.DecoderRaisesOneError : Prop :=
  ∀ (c : Config) (n : Nat) (em l : Octets), c.Valid → byteLen n ≤ c.kmax →
    (em.length ≠ byteLen n ∨ byteLen n < 2 * c.hlen + 2 ∨ em.getD 0 0x00#8 ≠ 0x00#8 →
      oaepDecode c n em l = .error .decodingError) ∧
    ∀ e, oaepDecode c n em l = .error e → e = .decodingError

/-- 43_rsa R167: in Encrypt only the two errors of OAEP_Encode can occur: the encoded integer is below the modulus, and the result fits `k`
octets. -/
def Obligations.EncryptRaisesOnlyEncodeErrors : Prop :=
  ∀ (c : Config) (n e : Nat) (m l : Octets) (draw : Option Octets), c.Valid → byteLen n ≤ c.kmax →
    (∀ seed, draw = some seed → seed.length = c.hlen) →
    (∀ err, rsaEncrypt c n e m l draw = .error err →
      oaepEncode c n m l draw = .error err ∧ (err = .messageTooLong ∨ err = .randomnessUnavailable)) ∧
    ∀ em, oaepEncode c n m l draw = .ok em →
      os2ip em < n ∧ ∃ ct, rsaEncrypt c n e m l draw = .ok ct ∧ ct.length = byteLen n ∧ os2ip ct = os2ip em ^ e % n

/-- 43_rsa R164: round trip: if `(n, e, d)` meets the key relation, decrypting an encryption gives the message, for every message within the
capacity, label and seed. -/
def Obligations.EncryptDecryptRoundTrip : Prop :=
  ∀ (c : Config) (n e d : Nat) (m l seed : Octets), c.Valid → byteLen n ≤ c.kmax →
    (∀ v, v < n → ∃ r, prim v e n = .ok r ∧ prim r d n = .ok v) → seed.length = c.hlen →
    m.length + 2 * c.hlen + 2 ≤ byteLen n →
    ∃ ct, rsaEncrypt c n e m l (some seed) = .ok ct ∧ rsaDecrypt c n d ct l = .ok m

/-- 10_state R35: K is the byte length of N at every instant: the octets of NWIN without its leading zero octets; 0 exactly when N = 0; never
above KMAX; and `256^(K-1) <= N < 256^K` otherwise. The host reads it at `0x0034` while IDLE and can never write it. -/
def Obligations.KIsTheByteLengthOfN : Prop :=
  ∀ s : State,
    kOf s = (bitLen (intOf s .nwin) + 7) / 8 ∧
    kOf s = s.cfg.kmax - ((windowPart s .nwin s.cfg.kmax).takeWhile (fun b => decide (b = 0x00#8))).length ∧
    (kOf s = 0 ↔ intOf s .nwin = 0) ∧ kOf s ≤ s.cfg.kmax ∧ intOf s .nwin < 256 ^ kOf s ∧
    (kOf s ≠ 0 → 256 ^ (kOf s - 1) ≤ intOf s .nwin) ∧
    (s.seq = .idle → hostRead s 0x0034 4 = (.okay, BitVec.ofNat 32 (kOf s))) ∧
    ∀ v, hostWrite s 0x0034 4 v = (.err, s)

/-! ### The commands: what each leaves when it succeeds, and its errors -/

/-- 44_control R186: NOP is the word 0; its COMPLETE sets ERRCODE 0, DONE and IDLE and nothing else: outputs, operands and the outside world keep their
values (scratch is zero as after any COMPLETE); irq is raised if IE; from reset STATUS is then `0x00000002`. -/
def Obligations.NopOnlyEnds : Prop :=
  decode 0x00000000#32 = some .nop ∧
  (∀ s : State, exec .nop s = .next { s with errcode := 0#4, done := true, seq := .idle, scratch := Scratch.zero }) ∧
  (∀ s t : State, exec .nop s = .next t → irq t = s.ie) ∧
  ∃ u t, hostWrite State.reset 0x0014 4 0x00000000#32 = (.okay, u) ∧ complete u = .next t ∧ statusWord t = 0x00000002#32

/-- 40_codec R112: I2OSP with `X < 256^ALEN` and `ALEN <= BMAX` leaves in OBUF the ALEN octets of X, in OLEN ALEN. -/
def Obligations.I2ospPutsTheOctetsInObuf : Prop :=
  ∀ s : State, s.cfg.Valid → intOf s .xwin < 256 ^ lengthArg s → lengthArg s ≤ s.cfg.bmax →
    ∃ t xs, exec .i2osp s = .next t ∧ StringResult t xs ∧ i2osp (intOf s .xwin) (lengthArg s) = .ok xs ∧
      xs.length = lengthArg s ∧ os2ip xs = intOf s .xwin ∧ KeepsOperands s t ∧ t.env = s.env

/-- 40_codec R113: OS2IP with a value below `256^KMAX` leaves it in YWIN; MBUF and MLEN are unchanged. -/
def Obligations.Os2ipPutsTheNumberInYwin : Prop :=
  ∀ s : State, s.cfg.Valid → os2ip (mbufString s) < 256 ^ s.cfg.kmax →
    ∃ t, exec .os2ip s = .next t ∧ IntResult t (os2ip (mbufString s)) ∧ KeepsOperands s t ∧ t.env = s.env

/-- 41_mgf1 R122: MGF1 with `ALEN <= BMAX` leaves in OBUF the ALEN octets of the mask of the seed in MBUF. -/
def Obligations.Mgf1PutsTheMaskInObuf : Prop :=
  ∀ s : State, s.cfg.Valid → lengthArg s ≤ s.cfg.bmax →
    ∃ t xs, exec .mgf1 s = .next t ∧ StringResult t xs ∧ mgf s.cfg (mbufString s) (lengthArg s) = .ok xs ∧
      xs.length = lengthArg s ∧ KeepsOperands s t ∧ t.env = s.env

/-- 43_rsa R155, R158: RSAEP and RSAVP1 with `X < N` leave `X^E mod N` in YWIN. -/
def Obligations.PublicPrimitivesRaiseToE : Prop :=
  ∀ (s : State) (i : Instr), i = .rsaep ∨ i = .rsavp1 → s.cfg.Valid → intOf s .xwin < intOf s .nwin →
    ∃ t, exec i s = .next t ∧ IntResult t (intOf s .xwin ^ intOf s .ewin % intOf s .nwin) ∧ KeepsOperands s t ∧ t.env = s.env

/-- 43_rsa R156, R157: RSADP and RSASP1 with `X < N` leave `X^D mod N` in YWIN. -/
def Obligations.SecretPrimitivesRaiseToD : Prop :=
  ∀ (s : State) (i : Instr), i = .rsadp ∨ i = .rsasp1 → s.cfg.Valid → intOf s .xwin < intOf s .nwin →
    ∃ t, exec i s = .next t ∧ IntResult t (intOf s .xwin ^ intOf s .dwin % intOf s .nwin) ∧ KeepsOperands s t ∧ t.env = s.env

/-- 42_oaep R133: OAEP_ENC of a message within the capacity, when the randomness port answers, leaves the encoding in OBUF and K in OLEN; the
port was asked once. -/
def Obligations.OaepEncPutsTheEncodingInObuf : Prop :=
  ∀ (s : State) (seed : Octets), s.cfg.Valid → s.mlen.toNat + 2 * s.cfg.hlen + 2 ≤ kOf s → drawAnswer s = some seed →
    ∃ t em, exec .oaepEnc s = .next t ∧ StringResult t em ∧
      oaepEncode s.cfg (intOf s .nwin) (mbufString s) (labelString s) (some seed) = .ok em ∧ em.length = kOf s ∧
      KeepsOperands s t ∧ t.env = { s.env with draws := s.env.draws.tail, asked := s.env.asked + 1 }

/-- 42_oaep R137 with R139: OAEP_DEC of a string that is an encoding of `m` under the label in LBUF, by any seed, leaves `m` in OBUF and its
length in OLEN, the empty message included. -/
def Obligations.OaepDecRecoversTheMessage : Prop :=
  ∀ (s : State) (m seed : Octets), s.cfg.Valid → seed.length = s.cfg.hlen →
    oaepEncode s.cfg (intOf s .nwin) m (labelString s) (some seed) = .ok (mbufString s) →
    ∃ t, exec .oaepDec s = .next t ∧ StringResult t m ∧ KeepsOperands s t ∧ t.env = s.env

/-- 43_rsa R161: ENCRYPT of a message within the capacity, when the randomness port answers, leaves in OBUF the K octets of
`OS2IP(EM)^E mod N`, for EM the encoding of the message; the port was asked once. -/
def Obligations.EncryptPutsTheCiphertextInObuf : Prop :=
  ∀ (s : State) (seed : Octets), s.cfg.Valid → s.mlen.toNat + 2 * s.cfg.hlen + 2 ≤ kOf s → drawAnswer s = some seed →
    ∃ t em ct, exec .encrypt s = .next t ∧
      oaepEncode s.cfg (intOf s .nwin) (mbufString s) (labelString s) (some seed) = .ok em ∧
      StringResult t ct ∧ ct.length = kOf s ∧ os2ip ct = os2ip em ^ intOf s .ewin % intOf s .nwin ∧
      KeepsOperands s t ∧ t.env = { s.env with draws := s.env.draws.tail, asked := s.env.asked + 1 }

/-- 43_rsa R163: DECRYPT of a ciphertext of K octets with `C < N`, when `C^D mod N` is an encoding of `m` under the label in LBUF, leaves `m` in
OBUF and its length in OLEN. -/
def Obligations.DecryptRecoversTheMessage : Prop :=
  ∀ (s : State) (m seed em : Octets), s.cfg.Valid → s.mlen.toNat = kOf s → os2ip (mbufString s) < intOf s .nwin →
    seed.length = s.cfg.hlen → oaepEncode s.cfg (intOf s .nwin) m (labelString s) (some seed) = .ok em →
    os2ip em = os2ip (mbufString s) ^ intOf s .dwin % intOf s .nwin →
    ∃ t, exec .decrypt s = .next t ∧ StringResult t m ∧ KeepsOperands s t ∧ t.env = s.env

/-- 60_exceptions R212: a command reports one code, that of the first cause in its own order; 0 when there is none. -/
def Obligations.CommandsReportTheFirstCause : Prop :=
  ∀ (s t : State) (i : Instr), s.cfg.Valid → exec i s = .next t → t.errcode = expectedCode s i

/-- 60_exceptions R201, 44_control R185: a data command that reports an error leaves OBUF, OLEN and YWIN zero, DONE set, IDLE, the error's code,
and every operand as it was: no result is written. -/
def Obligations.FailedCommandsLeaveNothing : Prop :=
  ∀ (s t : State) (i : Instr), s.cfg.Valid → i ≠ .nop → exec i s = .next t → t.errcode ≠ 0#4 →
    (∃ e, ErrorResult t e) ∧ KeepsOperands s t

/-- 42_oaep R138: every failure of OAEP_DEC, and every failure of DECRYPT that its decoding causes (code 4), leaves exactly the same
host-visible state: code 4, DONE, IDLE, the outputs zero, all else unchanged; so two failures from states that differ in anything a cause
could lie in are told apart by nothing the command wrote. -/
def Obligations.DecodeFailuresAreIndistinguishable : Prop :=
  ∀ (s t : State) (i : Instr), s.cfg.Valid → exec i s = .next t →
    (i = .oaepDec ∧ t.errcode ≠ 0#4) ∨ (i = .decrypt ∧ t.errcode = 4#4) →
    ErrorResult t .decodingError ∧ KeepsOperands s t ∧ t.env = s.env ∧ statusWord t = 0#8 ++ s.cmdr.extractLsb' 0 8 ++ 0x0406#16

/-- 44_control R184, R185: the frame of the eleven data commands: the operands, the parameters, IE and CMDR are unchanged and every octet
outside OBUF and YWIN reads as before; the command ends DONE and IDLE with scratch zero; the agenda and the answers given to the host (log 6, 10) are
untouched, and only OAEP_ENC and ENCRYPT ask the randomness port. -/
def Obligations.DataCommandFrame : Prop :=
  ∀ (s t : State) (i : Instr), s.cfg.Valid → exec i s = .next t →
    KeepsOperands s t ∧ (∃ code, Ended t code) ∧ t.env.agenda = s.env.agenda ∧ t.env.answers = s.env.answers ∧
    (i ≠ .oaepEnc → i ≠ .encrypt → t.env = s.env)

/-- 10_state R45, 42_oaep R131, R133: the randomness port is asked at most once per command, by OAEP_ENC and ENCRYPT only, and exactly when
the length check passed; `env.asked` counts (log 4). -/
def Obligations.PortAskedOnlyAfterTheLengthCheck : Prop :=
  ∀ (s t : State) (i : Instr), exec i s = .next t →
    t.env.asked = s.env.asked +
      (if (i = .oaepEnc ∨ i = .encrypt) ∧ s.mlen.toNat + 2 * s.cfg.hlen + 2 ≤ kOf s then 1 else 0)

/-- 42_oaep R142: OAEP_ENC and ENCRYPT fail with MessageTooLong for a message one octet over the capacity and succeed for one of exactly the
capacity, the latter provided the randomness port answers. -/
def Obligations.CapacityBoundaryOfEncoding : Prop :=
  ∀ (s t : State) (i : Instr), s.cfg.Valid → i = .oaepEnc ∨ i = .encrypt → exec i s = .next t →
    (s.mlen.toNat + 2 * s.cfg.hlen + 1 = kOf s → t.errcode = 1#4) ∧
    (s.mlen.toNat + 2 * s.cfg.hlen + 2 = kOf s → drawAnswer s ≠ none → t.errcode = 0#4)

/-- 60_exceptions R210: every COMPLETE raises the interrupt, whether the command succeeded, failed or was illegal, exactly when IE is set. -/
def Obligations.EveryCompletionRaisesIrq : Prop :=
  ∀ (s t : State), s.seq = .busy → coreToMove s → step s = .next t → t.done = true ∧ t.seq = .idle ∧ irq t = s.ie

/-! ### The host port -/

/-- 20_memory R62, R71: a host read, of any address and size, changes nothing of the block: only the answer is recorded (log 10), and ERR
comes with data 0. -/
def Obligations.HostReadsChangeNothing : Prop :=
  ∀ (s : State) (a n : Nat),
    ∃ t r d, eventStep s (.hostRead a n) = .next t ∧ hostRead s a n = (r, d) ∧ SameBlock s t ∧
      t.env = { s.env with answers := .read r d :: s.env.answers } ∧ (r = .err → d = 0#32)

/-- 60_exceptions R216, 20_memory R60: a host write answered ERR changes nothing of the block, not even ERRCODE; and, in every state, IDLE or
BUSY, these are answered ERR, reads with data 0 (R61, R64, R69): the wrong sizes, misaligned addresses, every address from `0x9000` on,
1-octet accesses to registers, the reserved registers `0x0018` to `0x001F` and `0x0038` to `0x0FFF`, window offsets at or beyond the
capacity, and a write of OLEN. -/
def Obligations.RefusedTransactionsChangeNothing : Prop :=
  (∀ (s t : State) (a n : Nat) (v : Word), hostWrite s a n v = (.err, t) → t = s) ∧
  (∀ (s : State) (a n : Nat) (v : Word),
    (n ≠ 1 ∧ n ≠ 4) ∨ a % n ≠ 0 ∨ 0x9000 ≤ a ∨ (a < 0x1000 ∧ n ≠ 4) ∨ (0x0018 ≤ a ∧ a < 0x0020) ∨ (0x0038 ≤ a ∧ a < 0x1000) →
    hostRead s a n = (.err, 0#32) ∧ hostWrite s a n v = (.err, s)) ∧
  (∀ (s : State) (w : Window) (j n : Nat) (v : Word), j < 0x1000 → windowCap s.cfg w < j + n →
    hostRead s (windowBase w + j) n = (.err, 0#32) ∧ hostWrite s (windowBase w + j) n v = (.err, s)) ∧
  ∀ (s : State) (n : Nat) (v : Word), hostWrite s 0x0030 n v = (.err, s)

/-- 20_memory R66, R67: while BUSY every read and write from `0x0020` on is answered ERR, reads give 0 and nothing changes, and a write to CMD
is answered ERR and changes nothing; the control block stays accessible. -/
def Obligations.BusyLocksOutOperandsAndCmd : Prop :=
  ∀ s : State, s.seq = .busy →
    (∀ (a n : Nat) (v : Word), 0x0020 ≤ a → hostRead s a n = (.err, 0#32) ∧ hostWrite s a n v = (.err, s)) ∧
    (∀ (n : Nat) (v : Word), hostWrite s 0x0014 n v = (.err, s)) ∧
    (∀ a ∈ [0x0000, 0x0004, 0x0008, 0x000C, 0x0010, 0x0014], (hostRead s a 4).1 = .okay) ∧
    ∀ v : Word, (hostWrite s 0x000C 4 v).1 = .okay ∧ (hostWrite s 0x0010 4 v).1 = .okay

/-- 20_memory R68: MLEN and LLEN refuse a value above their capacity, IDLE or BUSY, keeping the old value, and while IDLE take one within
it. While IDLE a host read of `0x0028`, `0x002C` and `0x0030` gives MLEN, LLEN and OLEN (R62). -/
def Obligations.LengthRegistersRefuseOverCapacity : Prop :=
  ∀ (s : State) (v : Word),
    (v.toNat > s.cfg.bmax → hostWrite s 0x0028 4 v = (.err, s)) ∧
    (v.toNat > s.cfg.lmax → hostWrite s 0x002C 4 v = (.err, s)) ∧
    (s.seq = .idle → v.toNat ≤ s.cfg.bmax → hostWrite s 0x0028 4 v = (.okay, { s with mlen := v })) ∧
    (s.seq = .idle → v.toNat ≤ s.cfg.lmax → hostWrite s 0x002C 4 v = (.okay, { s with llen := v })) ∧
    (s.seq = .idle → hostRead s 0x0028 4 = (.okay, s.mlen) ∧ hostRead s 0x002C 4 = (.okay, s.llen) ∧
      hostRead s 0x0030 4 = (.okay, s.olen))

/-- 20_memory R70: a read of DWIN inside the capacity, 1 or 4 octets, while IDLE, gives 0 with OKAY whatever the cell holds; so does a read of
CMD. -/
def Obligations.DwinAndCmdReadZero : Prop :=
  (∀ (s : State) (j n : Nat), s.cfg.Valid → s.seq = .idle → n = 1 ∨ n = 4 → j % n = 0 → j + n ≤ s.cfg.kmax →
    hostRead s (0x3000 + j) n = (.okay, 0#32)) ∧
  ∀ s : State, hostRead s 0x0014 4 = (.okay, 0#32)

/-- 20_memory R62, R65, R74 (2): big-endian lanes. While IDLE, an aligned read of 1 or 4 octets inside the capacity of any window but DWIN,
YWIN and OBUF among them, is answered OKAY with the octet, zero-extended, or with the four octets as one number, the one at the lowest
address most significant. After a 4-octet write to a window but DWIN, reading 4 octets there gives the value back and reading one octet at
`a + j` gives bits `31-8j : 24-8j` of it; after a 1-octet write, reading the octet gives the written data's bits 7:0 (44_control R189, log
16). -/
def Obligations.WindowAccessesAreBigEndian : Prop :=
  (∀ (s : State) (w : Window) (j n : Nat), s.cfg.Valid → s.seq = .idle → w ≠ .dwin → n = 1 ∨ n = 4 → j % n = 0 →
    j + n ≤ windowCap s.cfg w →
    ∃ d, hostRead s (windowBase w + j) n = (.okay, d) ∧
      (n = 1 → d.toNat = (Memory.read s.mem (windowBase w + j)).toNat) ∧
      (n = 4 → d.toNat = (Memory.read s.mem (windowBase w + j)).toNat * 2 ^ 24 +
        (Memory.read s.mem (windowBase w + j + 1)).toNat * 2 ^ 16 +
        (Memory.read s.mem (windowBase w + j + 2)).toNat * 2 ^ 8 + (Memory.read s.mem (windowBase w + j + 3)).toNat)) ∧
  (∀ (s t : State) (a : Nat) (v : Word), 0x1000 ≤ a → a / 0x1000 ≠ 3 → hostWrite s a 4 v = (.okay, t) →
    hostRead t a 4 = (.okay, v) ∧
    ∀ j, j < 4 → hostRead t (a + j) 1 = (.okay, BitVec.ofNat 32 (v.toNat / 256 ^ (3 - j) % 256))) ∧
  ∀ (s t : State) (a : Nat) (v : Word), 0x1000 ≤ a → a / 0x1000 ≠ 3 → hostWrite s a 1 v = (.okay, t) →
    hostRead t a 1 = (.okay, BitVec.ofNat 32 (v.toNat % 256))

/-- 20_memory R63, R65, R69: while IDLE, an aligned write of 1 or 4 octets inside the capacity of a writable window, DWIN among them, is answered
OKAY and stores the octets of the value, most significant first, a 1-octet write bits 7:0 (44_control R189, log 16); in an integer window
the number held changes by exactly those octets at their place. A host write answered OKAY to a window changes only the octets it covers,
and no register; a write of a read-only window is answered ERR. -/
def Obligations.WindowWritesStayInPlace : Prop :=
  (∀ (s : State) (w : Window) (j n : Nat) (v : Word), s.cfg.Valid → s.seq = .idle → w ≠ .ywin → w ≠ .obuf →
    n = 1 ∨ n = 4 → j % n = 0 → j + n ≤ windowCap s.cfg w →
    ∃ t, hostWrite s (windowBase w + j) n v = (.okay, t) ∧
      (∀ i, i < n → (Memory.read t.mem (windowBase w + j + i)).toNat = v.toNat / 256 ^ (n - 1 - i) % 256) ∧
      (w = .nwin ∨ w = .ewin ∨ w = .dwin ∨ w = .xwin →
        intOf t w + os2ip (Memory.readBytes s.mem (windowBase w + j) n) * 256 ^ (s.cfg.kmax - j - n) =
          intOf s w + v.toNat % 256 ^ n * 256 ^ (s.cfg.kmax - j - n))) ∧
  (∀ (s t : State) (a n : Nat) (v : Word), 0x1000 ≤ a → hostWrite s a n v = (.okay, t) →
    (∀ x, ¬(a ≤ x ∧ x < a + n) → Memory.read t.mem x = Memory.read s.mem x) ∧ { t with mem := s.mem } = s) ∧
  ∀ (s : State) (a n : Nat) (v : Word), a / 0x1000 = 5 ∨ a / 0x1000 = 8 → hostWrite s a n v = (.err, s)

/-- 10_state R40: STATUS reads BUSY, DONE, ERR, ERRCODE and OPC in their places and zero elsewhere, IDLE or BUSY; a write of 1 to bit 1 clears
DONE, a write of 0 does not, and no other field is written. -/
def Obligations.StatusRegisterLayout : Prop :=
  ∀ s : State,
    (∃ w, hostRead s 0x0010 4 = (.okay, w) ∧
      w.toNat = (if s.seq = .busy then 1 else 0) + (if s.done then 2 else 0) + (if s.errcode ≠ 0#4 then 4 else 0) +
        s.errcode.toNat * 2 ^ 8 + s.cmdr.toNat % 256 * 2 ^ 16) ∧
    ∀ v : Word, hostWrite s 0x0010 4 v = (.okay, if v.getLsbD 1 then { s with done := false } else s)

/-- 10_state R39: CTRL reads IE in bit 0 and zero elsewhere; a write without bit 1 sets IE to bit 0 and nothing else, IDLE or BUSY. -/
def Obligations.CtrlRegisterLayout : Prop :=
  ∀ s : State,
    hostRead s 0x000C 4 = (.okay, if s.ie then 1#32 else 0#32) ∧
    ∀ v : Word, v.getLsbD 1 = false → hostWrite s 0x000C 4 v = (.okay, { s with ie := v.getLsbD 0 })

/-- 10_state R36, R37, R38: ID, CAP0 and CAP1 read their constants in every state and cannot be written; the default words. -/
def Obligations.IdentificationRegisters : Prop :=
  (∀ s : State, s.cfg.Valid →
    hostRead s 0x0000 4 = (.okay, 0x504B4331#32) ∧
    (∃ w, hostRead s 0x0004 4 = (.okay, w) ∧ w.toNat = s.cfg.kmax + s.cfg.bmax * 2 ^ 16) ∧
    (∃ w, hostRead s 0x0008 4 = (.okay, w) ∧ w.toNat = s.cfg.lmax + s.cfg.hlen * 2 ^ 16) ∧
    ∀ v : Word, hostWrite s 0x0000 4 v = (.err, s) ∧ hostWrite s 0x0004 4 v = (.err, s) ∧ hostWrite s 0x0008 4 v = (.err, s)) ∧
  hostRead State.reset 0x0004 4 = (.okay, 0x02000200#32) ∧ hostRead State.reset 0x0008 4 = (.okay, 0x00200200#32)

/-- 10_state R31, 20_memory R63, R72: while IDLE a write of one half of ALEN sets that half, keeps the other and changes nothing else; so the two
halves can be written in either order, and the pair is `ALEN_HI * 2^32 + ALEN_LO`; each half reads back. -/
def Obligations.AlenIsWrittenInHalves : Prop :=
  ∀ (s : State) (lo hi : Word), s.seq = .idle →
    (∃ t, hostWrite s 0x0020 4 lo = (.okay, t) ∧ lengthArg t = lengthArg s / 2 ^ 32 * 2 ^ 32 + lo.toNat ∧
      { t with alen := s.alen } = s) ∧
    (∃ t, hostWrite s 0x0024 4 hi = (.okay, t) ∧ lengthArg t = hi.toNat * 2 ^ 32 + lengthArg s % 2 ^ 32 ∧
      { t with alen := s.alen } = s) ∧
    (∃ t u, hostWrite s 0x0020 4 lo = (.okay, t) ∧ hostWrite t 0x0024 4 hi = (.okay, u) ∧
      lengthArg u = hi.toNat * 2 ^ 32 + lo.toNat ∧ { u with alen := s.alen } = s ∧
      hostRead u 0x0020 4 = (.okay, lo) ∧ hostRead u 0x0024 4 = (.okay, hi)) ∧
    ∃ t u, hostWrite s 0x0024 4 hi = (.okay, t) ∧ hostWrite t 0x0020 4 lo = (.okay, u) ∧
      lengthArg u = hi.toNat * 2 ^ 32 + lo.toNat ∧ { u with alen := s.alen } = s ∧
      hostRead u 0x0020 4 = (.okay, lo) ∧ hostRead u 0x0024 4 = (.okay, hi)
end

