-- ==== Sys2Proof/Laws/Codec.lean ====
section
/-! SUPPORT. The integer codec: lengths, values and single octets of `octetsOf` and `os2ip`, the bit length, and the exclusive or
of octet strings. -/

namespace Sys2Proof.Machine

/-! ### Lengths and octets of `octetsOf` -/

@[simp] theorem octetsOf_length (x n : Nat) : (octetsOf x n).length = n := by
  induction n with
  | zero => rfl
  | succ n ih => simp [octetsOf, ih]

theorem octetsOf_getElem (x n i : Nat) (h : i < (octetsOf x n).length) :
    (octetsOf x n)[i] = BitVec.ofNat 8 (x / 256 ^ (n - 1 - i)) := by
  induction n generalizing i with
  | zero => simp at h
  | succ n ih =>
    cases i with
    | zero => simp [octetsOf]
    | succ i =>
      simp only [octetsOf, List.getElem_cons_succ, ih]
      rw [show n + 1 - 1 - (i + 1) = n - 1 - i by omega]

/-! ### Values of `os2ip` -/

theorem os2ip_foldl (xs : Octets) (acc : Nat) :
    xs.foldl (fun acc b => acc * 256 + b.toNat) acc = acc * 256 ^ xs.length + os2ip xs := by
  induction xs generalizing acc with
  | nil => simp [os2ip]
  | cons b xs ih =>
    have h0 : os2ip (b :: xs) = b.toNat * 256 ^ xs.length + os2ip xs := by
      rw [show os2ip (b :: xs) = xs.foldl (fun acc b => acc * 256 + b.toNat) (0 * 256 + b.toNat) from rfl, ih, Nat.zero_mul,
        Nat.zero_add]
    rw [List.foldl_cons, ih, h0, List.length_cons, Nat.pow_succ', Nat.add_mul, Nat.mul_assoc, Nat.add_assoc]

theorem os2ip_nil : os2ip [] = 0 := rfl

theorem os2ip_cons (b : Byte) (xs : Octets) : os2ip (b :: xs) = b.toNat * 256 ^ xs.length + os2ip xs := by
  rw [os2ip, List.foldl_cons, os2ip_foldl, Nat.zero_mul, Nat.zero_add]

theorem os2ip_append (xs ys : Octets) : os2ip (xs ++ ys) = os2ip xs * 256 ^ ys.length + os2ip ys := by
  rw [os2ip, List.foldl_append, os2ip_foldl]
  rfl

theorem os2ip_lt (xs : Octets) : os2ip xs < 256 ^ xs.length := by
  induction xs with
  | nil => simp [os2ip_nil]
  | cons b xs ih =>
    rw [os2ip_cons, List.length_cons, Nat.pow_succ']
    have hb : b.toNat ≤ 255 := by have := b.isLt; omega
    have : b.toNat * 256 ^ xs.length ≤ 255 * 256 ^ xs.length := Nat.mul_le_mul_right _ hb
    omega

/-- The value of the octets of `x` in `n` places: `x`, cut to `n` octets. -/
theorem os2ip_octetsOf (x n : Nat) : os2ip (octetsOf x n) = x % 256 ^ n := by
  induction n with
  | zero => simp [octetsOf, os2ip_nil, Nat.mod_one]
  | succ n ih =>
    rw [octetsOf, os2ip_cons, octetsOf_length, ih, BitVec.toNat_ofNat, show 256 ^ (n + 1) = 256 ^ n * 256 from rfl, Nat.mod_mul,
      Nat.add_comm, Nat.mul_comm (256 ^ n)]

theorem octetsOf_add_mul (a x : Nat) {n m : Nat} (h : n ≤ m) : octetsOf (a * 256 ^ m + x) n = octetsOf x n := by
  induction n with
  | zero => rfl
  | succ n ih =>
    rw [octetsOf, octetsOf, ih (by omega)]
    congr 1
    apply BitVec.eq_of_toNat_eq
    rw [BitVec.toNat_ofNat, BitVec.toNat_ofNat]
    obtain ⟨d, rfl⟩ : ∃ d, m = n + 1 + d := ⟨m - (n + 1), by omega⟩
    rw [Nat.pow_add, Nat.pow_succ, show a * (256 ^ n * 256 * 256 ^ d) + x = x + 256 ^ n * (256 * (a * 256 ^ d)) by
      rw [Nat.add_comm]; congr 1; simp only [Nat.mul_comm, Nat.mul_left_comm, Nat.mul_assoc],
      Nat.add_mul_div_left _ _ (Nat.pow_pos (by omega))]
    omega

/-- The octets of the value of a string, in as many places as it has: the string. -/
theorem octetsOf_os2ip (xs : Octets) : octetsOf (os2ip xs) xs.length = xs := by
  induction xs with
  | nil => rfl
  | cons b xs ih =>
    rw [List.length_cons, octetsOf, os2ip_cons, octetsOf_add_mul _ _ (Nat.le_refl _), ih]
    congr 1
    have hlt := os2ip_lt xs
    apply BitVec.eq_of_toNat_eq
    rw [BitVec.toNat_ofNat, Nat.add_comm, Nat.add_mul_div_right _ _ (Nat.pow_pos (by omega)), Nat.div_eq_of_lt hlt,
      Nat.zero_add]
    exact Nat.mod_eq_of_lt b.isLt

theorem os2ip_octetsOf_of_lt {x n : Nat} (h : x < 256 ^ n) : os2ip (octetsOf x n) = x := by
  rw [os2ip_octetsOf, Nat.mod_eq_of_lt h]

/-- `I2OSP` of a value that fits. -/
theorem i2osp_of_lt {x n : Nat} (h : x < 256 ^ n) : i2osp x n = .ok (octetsOf x n) := by
  unfold i2osp
  rw [if_neg (by omega)]

theorem i2osp_of_ge {x n : Nat} (h : 256 ^ n ≤ x) : i2osp x n = .error .integerTooLarge := by
  unfold i2osp
  rw [if_pos (by omega)]

/-! ### Bit length and byte length -/

theorem lt_two_pow_bitLen (x : Nat) : x < 2 ^ bitLen x := by
  unfold bitLen
  split
  · omega
  · exact Nat.lt_log2_self

theorem bitLen_le {x b : Nat} (h : x < 2 ^ b) : bitLen x ≤ b := by
  unfold bitLen
  split
  · omega
  · next hx => exact (Nat.log2_lt hx).mpr h

theorem two_pow_le_of_bitLen {x b : Nat} (h : b < bitLen x) : 2 ^ b ≤ x := by
  apply Nat.le_of_not_lt
  intro hlt
  have := bitLen_le hlt
  omega

theorem lt_pow_byteLen (x : Nat) : x < 256 ^ byteLen x := by
  refine Nat.lt_of_lt_of_le (lt_two_pow_bitLen x) ?_
  rw [show 256 = 2 ^ 8 from rfl, ← Nat.pow_mul]
  apply Nat.pow_le_pow_right (by omega)
  unfold byteLen ceilDiv
  omega

theorem byteLen_le {x n : Nat} (h : x < 256 ^ n) : byteLen x ≤ n := by
  rw [show 256 = 2 ^ 8 from rfl, ← Nat.pow_mul] at h
  have := bitLen_le h
  unfold byteLen ceilDiv
  omega

theorem pow_le_of_byteLen {x n : Nat} (h : n < byteLen x) : 256 ^ n ≤ x := by
  apply Nat.le_of_not_lt
  intro hlt
  have := byteLen_le hlt
  omega

/-! ### Exclusive or of octet strings -/

@[simp] theorem xorOctets_length (a b : Octets) : (xorOctets a b).length = min a.length b.length := by
  simp [xorOctets]

/-- One octet of an exclusive or. -/
theorem xorOctets_getD {a b : Octets} {i : Nat} (ha : i < a.length) (hb : i < b.length) :
    (xorOctets a b).getD i 0x00#8 = a.getD i 0x00#8 ^^^ b.getD i 0x00#8 := by
  have h : i < (xorOctets a b).length := by simp; omega
  rw [List.getD_eq_getElem _ _ h, List.getD_eq_getElem _ _ ha, List.getD_eq_getElem _ _ hb]
  simp [xorOctets]

/-- Masking twice with the same mask gives the string back. -/
theorem xorOctets_cancel {a m : Octets} (h : a.length ≤ m.length) : xorOctets (xorOctets a m) m = a := by
  unfold xorOctets
  induction a generalizing m with
  | nil => simp
  | cons x a ih =>
    cases m with
    | nil => simp at h
    | cons y m =>
      simp only [List.length_cons] at h
      simp only [List.zipWith_cons_cons, ih (show a.length ≤ m.length by omega), BitVec.xor_assoc, BitVec.xor_self,
        BitVec.xor_zero]

@[simp] theorem zeros_length (n : Nat) : (zeros n).length = n := by simp [zeros]

end Sys2Proof.Machine
end

