-- ==== Sys2Proof/Laws/Functions.lean ====
section
/-! SUPPORT. The function layer: how long the results of the hash, MGF, OAEP, Encrypt and Decrypt are, when they are results, and
that none of them raises the reserved InternalDefect. -/

namespace Sys2Proof.Machine

/-! ### The hash and MGF -/

@[simp] theorem hash_length (c : Config) (xs : Octets) : (hash c xs).length = c.hlen := by simp [hash]

@[simp] theorem mgfBlock_length (c : Config) (seed : Octets) (i : Nat) : (mgfBlock c seed i).length = c.hlen := by
  simp [mgfBlock]

@[simp] theorem mgfBlocks_length (c : Config) (seed : Octets) (n : Nat) : (mgfBlocks c seed n).length = n * c.hlen := by
  induction n with
  | zero => simp [mgfBlocks]
  | succ n ih => simp [mgfBlocks, ih, Nat.succ_mul]

theorem le_ceilDiv_mul (a : Nat) {b : Nat} (hb : 1 ≤ b) : a ≤ ceilDiv a b * b := by
  unfold ceilDiv
  have h1 := Nat.div_add_mod (a + b - 1) b
  have h2 := Nat.mod_lt (a + b - 1) (show 0 < b by omega)
  rw [Nat.mul_comm] at h1
  omega

/-- Within the bound of 41_mgf1 R120, MGF gives its blocks cut to the mask length. -/
theorem mgf_of_le {c : Config} {seed : Octets} {n : Nat} (h : n ≤ 2 ^ 32 * c.hlen) :
    mgf c seed n = .ok ((mgfBlocks c seed (ceilDiv n c.hlen)).take n) := by
  unfold mgf
  rw [if_neg (by omega)]

theorem mgf_length {c : Config} {seed t : Octets} {n : Nat} (hc : 1 ≤ c.hlen) (h : mgf c seed n = .ok t) :
    t.length = n := by
  unfold mgf at h
  split at h
  · cases h
  · cases h
    rw [List.length_take, mgfBlocks_length]
    exact Nat.min_eq_left (le_ceilDiv_mul n hc)

/-- A mask no longer than an octet window is always within the bound (41_mgf1 R124). -/
theorem mgf_small {c : Config} {seed : Octets} {n : Nat} (hc : 1 ≤ c.hlen) (hn : n ≤ 2 ^ 32) :
    ∃ t, mgf c seed n = .ok t ∧ t.length = n := by
  have hle : n ≤ 2 ^ 32 * c.hlen := Nat.le_trans hn (Nat.le_mul_of_pos_right _ (by omega))
  exact ⟨_, mgf_of_le hle, mgf_length hc (mgf_of_le hle)⟩

/-! ### OAEP -/

theorem oaepFits_iff {c : Config} {k m : Nat} : oaepFits c k m = true ↔ m + 2 * c.hlen + 2 ≤ k := by simp [oaepFits]

theorem oaepDB_length {c : Config} {k : Nat} {m l : Octets} (h : m.length + 2 * c.hlen + 2 ≤ k) :
    (oaepDB c k m l).length = k - c.hlen - 1 := by
  simp only [oaepDB, List.length_append, hash_length, zeros_length, List.length_cons, List.length_nil]
  omega

/-- Masking a data block of the right length gives an EM: `0x00`, the masked seed, the masked data block. -/
theorem oaepMask_ok {c : Config} {k : Nat} {seed db : Octets} (hc : 1 ≤ c.hlen) (hk : k ≤ 2 ^ 32) (hl : c.hlen ≤ 2 ^ 32) :
    ∃ dbMask seedMask, mgf c seed (k - c.hlen - 1) = .ok dbMask ∧ dbMask.length = k - c.hlen - 1 ∧
      mgf c (xorOctets db dbMask) c.hlen = .ok seedMask ∧ seedMask.length = c.hlen ∧
      oaepMask c k seed db = .ok (0x00#8 :: (xorOctets seed seedMask ++ xorOctets db dbMask)) := by
  obtain ⟨dbMask, h1, h2⟩ := mgf_small (c := c) (seed := seed) (n := k - c.hlen - 1) hc (by omega)
  obtain ⟨seedMask, h3, h4⟩ := mgf_small (c := c) (seed := xorOctets db dbMask) (n := c.hlen) hc hl
  refine ⟨dbMask, seedMask, h1, h2, h3, h4, ?_⟩
  simp only [oaepMask, h1, h3]

theorem oaepMask_length {c : Config} {k : Nat} {seed db em : Octets} (hc : 1 ≤ c.hlen) (hs : seed.length = c.hlen)
    (hd : db.length = k - c.hlen - 1) (hk : c.hlen + 1 ≤ k) (h : oaepMask c k seed db = .ok em) : em.length = k := by
  unfold oaepMask at h
  simp only at h
  split at h
  · cases h
  · next dbMask h1 =>
    split at h
    · cases h
    · next seedMask h2 =>
      cases h
      have e1 := mgf_length hc h1
      have e2 := mgf_length hc h2
      simp only [List.length_cons, List.length_append, xorOctets_length, e1, e2, hs, hd]
      omega

/-- An EM is exactly `k` octets (42_oaep R131 step 8). -/
theorem oaepEncode_length {c : Config} {n : Nat} {m l em : Octets} {draw : Option Octets} (hc : 1 ≤ c.hlen)
    (hd : ∀ s, draw = some s → s.length = c.hlen) (h : oaepEncode c n m l draw = .ok em) : em.length = byteLen n := by
  unfold oaepEncode at h
  simp only at h
  split at h
  · next hf =>
    rw [oaepFits_iff] at hf
    cases draw with
    | none => cases h
    | some seed => exact oaepMask_length hc (hd seed rfl) (oaepDB_length hf) (by omega) h
  · cases h

theorem splitSeparator_length {xs m : Octets} (h : splitSeparator xs = some m) : m.length + 1 ≤ xs.length := by
  induction xs with
  | nil => simp [splitSeparator] at h
  | cons b xs ih =>
    rw [splitSeparator] at h
    split at h
    · have := ih h
      simp only [List.length_cons]
      omega
    · split at h
      · cases h
        simp
      · cases h

/-- A decoded message is within the OAEP capacity (42_oaep R137). -/
theorem oaepDecode_length {c : Config} {n : Nat} {em l m : Octets} (hc : 1 ≤ c.hlen)
    (h : oaepDecode c n em l = .ok m) : m.length + 2 * c.hlen + 2 ≤ byteLen n := by
  unfold oaepDecode at h
  simp only at h
  split at h
  · cases h
  · next hk =>
    split at h
    · cases h
    · next sm h1 =>
      split at h
      · cases h
      · next dm h2 =>
        split at h
        · cases h
        · next m' h3 =>
          split at h
          · cases h
          · cases h
            have := splitSeparator_length h3
            have e2 := mgf_length hc h2
            simp only [List.length_drop, xorOctets_length, e2] at this
            omega

/-! ### Encrypt and Decrypt -/

/-- A ciphertext is exactly `k` octets (43_rsa R160). -/
theorem rsaEncrypt_length {c : Config} {n e : Nat} {m l ct : Octets} {draw : Option Octets}
    (h : rsaEncrypt c n e m l draw = .ok ct) : ct.length = byteLen n := by
  unfold rsaEncrypt at h
  split at h
  · cases h
  · split at h
    · cases h
    · unfold i2osp at h
      split at h
      · cases h
      · cases h
        simp

theorem rsaDecrypt_length {c : Config} {n d : Nat} {ct l m : Octets} (hc : 1 ≤ c.hlen)
    (h : rsaDecrypt c n d ct l = .ok m) : m.length + 2 * c.hlen + 2 ≤ byteLen n := by
  unfold rsaDecrypt at h
  split at h
  · cases h
  · split at h
    · cases h
    · split at h
      · cases h
      · exact oaepDecode_length hc h

/-! ### InternalDefect is never raised (60_exceptions R209) -/

theorem i2osp_not_defect {x n : Nat} {e : CoreError} (h : i2osp x n = .error e) : e ≠ .internalDefect := by
  unfold i2osp at h
  split at h <;> cases h
  decide

theorem mgf_not_defect {c : Config} {seed : Octets} {n : Nat} {e : CoreError} (h : mgf c seed n = .error e) :
    e ≠ .internalDefect := by
  unfold mgf at h
  split at h <;> cases h
  decide

theorem prim_not_defect {v x n : Nat} {e : CoreError} (h : prim v x n = .error e) : e ≠ .internalDefect := by
  unfold prim at h
  split at h <;> cases h
  decide

theorem oaepEncode_not_defect {c : Config} {n : Nat} {m l : Octets} {draw : Option Octets} {e : CoreError}
    (h : oaepEncode c n m l draw = .error e) : e ≠ .internalDefect := by
  unfold oaepEncode at h
  simp only at h
  split at h
  · split at h
    · cases h
      decide
    · unfold oaepMask at h
      simp only at h
      split at h
      · next h1 =>
        cases h
        exact mgf_not_defect h1
      · split at h
        · next h2 =>
          cases h
          exact mgf_not_defect h2
        · cases h
  · cases h
    decide

theorem oaepDecode_not_defect {c : Config} {n : Nat} {em l : Octets} {e : CoreError}
    (h : oaepDecode c n em l = .error e) : e ≠ .internalDefect := by
  unfold oaepDecode at h
  simp only at h
  split at h
  · cases h
    decide
  · split at h
    · next h1 =>
      cases h
      exact mgf_not_defect h1
    · split at h
      · next h2 =>
        cases h
        exact mgf_not_defect h2
      · split at h
        · cases h
          decide
        · split at h <;> cases h
          decide

theorem rsaEncrypt_not_defect {c : Config} {n x : Nat} {m l : Octets} {draw : Option Octets} {e : CoreError}
    (h : rsaEncrypt c n x m l draw = .error e) : e ≠ .internalDefect := by
  unfold rsaEncrypt at h
  split at h
  · next h1 =>
    cases h
    exact oaepEncode_not_defect h1
  · split at h
    · next h2 =>
      cases h
      exact prim_not_defect h2
    · exact i2osp_not_defect h

theorem rsaDecrypt_not_defect {c : Config} {n d : Nat} {ct l : Octets} {e : CoreError}
    (h : rsaDecrypt c n d ct l = .error e) : e ≠ .internalDefect := by
  unfold rsaDecrypt at h
  split at h
  · cases h
    decide
  · split at h
    · next h1 =>
      cases h
      exact prim_not_defect h1
    · split at h
      · next h2 =>
        cases h
        exact i2osp_not_defect h2
      · exact oaepDecode_not_defect h

/-- The loop of 43_rsa R153 from accumulator `r`: what `i` more bits of the exponent make of it. -/
theorem modExpLoop_eq (b x n i r : Nat) : modExpLoop b x n i (r % n) = r ^ (2 ^ i) * b ^ (x % 2 ^ i) % n := by
  induction i generalizing r with
  | zero => simp [modExpLoop, Nat.mod_one]
  | succ i ih =>
    rw [modExpLoop]
    have hx : x % 2 ^ (i + 1) = (if x.testBit i then 2 ^ i else 0) + x % 2 ^ i := by
      rw [Nat.pow_succ, Nat.mod_mul, Nat.testBit_eq_decide_div_mod_eq]
      rcases Nat.mod_two_eq_zero_or_one (x / 2 ^ i) with h | h <;> simp [h, Nat.add_comm]
    have h2 : r % n * (r % n) % n = r * r % n := by rw [← Nat.mul_mod]
    rw [hx]
    by_cases hb : x.testBit i
    · simp only [hb, if_true]
      rw [h2, show (r * r % n * b) % n = (r * r * b) % n by rw [Nat.mod_mul_mod], ih, Nat.mul_pow, Nat.pow_add b,
        ← Nat.mul_assoc, ← Nat.pow_two, ← Nat.pow_mul, Nat.pow_succ, Nat.mul_comm 2]
    · simp only [hb]
      rw [if_neg (by simp), if_neg (by simp), Nat.zero_add, h2, ih, ← Nat.pow_two, ← Nat.pow_mul, Nat.pow_succ,
        Nat.mul_comm 2]

end Sys2Proof.Machine
end

