-- ==== Sys2Proof/Laws/Memory.lean ====
section
/-! SUPPORT. What the memory operations do, once: a read after each of them, the canonical form each of them keeps, and that two
memories in canonical form that read alike are the same list. -/

namespace Sys2Proof.Machine

/-! ### Reads after each operation -/

theorem Memory.read_nil (a : Nat) : Memory.read [] a = 0x00#8 := rfl

theorem Memory.read_cons (c : Host.Cell) (m : List Host.Cell) (a : Nat) :
    Memory.read (c :: m) a = if a = c.1 then c.2 else Memory.read m a := rfl

/-- A cleared range reads zero, every other address as before. -/
theorem Memory.read_clear (m : List Host.Cell) (a n x : Nat) :
    Memory.read (Memory.clear m a n) x = if a ≤ x ∧ x < a + n then 0x00#8 else Memory.read m x := by
  induction m with
  | nil => simp [Memory.clear, Memory.read_nil]
  | cons c m ih =>
    by_cases hc : c.1 < a ∨ a + n ≤ c.1
    · have : Memory.clear (c :: m) a n = c :: Memory.clear m a n := by simp [Memory.clear, hc]
      rw [this, Memory.read_cons, ih, Memory.read_cons]
      split <;> split <;> first | rfl | omega
    · have : Memory.clear (c :: m) a n = Memory.clear m a n := by
        simp only [Memory.clear, List.filter_cons]
        simp only [not_or, Nat.not_lt, Nat.not_le] at hc
        simp [Nat.not_lt.mpr hc.1, Nat.not_le.mpr hc.2]
      rw [this, ih, Memory.read_cons]
      by_cases hx : a ≤ x ∧ x < a + n
      · simp [hx]
      · rw [if_neg hx, if_neg hx, if_neg (by omega)]

/-- Reading after a cell was put where no cell of its address was. -/
theorem Memory.read_insert (m : List Host.Cell) (a : Nat) (b : Byte) (x : Nat) (h : ∀ c ∈ m, c.1 ≠ a) :
    Memory.read (Memory.insert m a b) x = if x = a then b else Memory.read m x := by
  induction m with
  | nil => rfl
  | cons c m ih =>
    have hc : c.1 ≠ a := h c (by simp)
    rw [Memory.insert]
    split
    · rw [Memory.read_cons]
    · rw [Memory.read_cons, ih (fun d hd => h d (by simp [hd])), Memory.read_cons]
      by_cases hx : x = a
      · rw [if_neg (by omega), if_pos hx, if_pos hx]
      · rw [if_neg hx, if_neg hx]

theorem Memory.clear_ne {m : List Host.Cell} {a : Nat} {c : Host.Cell} (h : c ∈ Memory.clear m a 1) : c.1 ≠ a := by
  simp only [Memory.clear, List.mem_filter, Bool.or_eq_true, decide_eq_true_eq] at h
  omega

/-- A read after a write gives the octet written, and a write leaves every other address alone (20_memory R74 (2)). -/
theorem Memory.read_write (m : List Host.Cell) (a : Nat) (b : Byte) (x : Nat) :
    Memory.read (Memory.write m a b) x = if x = a then b else Memory.read m x := by
  unfold Memory.write
  split
  · next hb =>
    rw [Memory.read_clear]
    by_cases hx : x = a
    · rw [if_pos (by omega), if_pos hx, hb]
    · rw [if_neg (by omega), if_neg hx]
  · rw [Memory.read_insert _ _ _ _ (fun _ hc => Memory.clear_ne hc), Memory.read_clear]
    by_cases hx : x = a
    · simp [hx]
    · rw [if_neg hx, if_neg hx, if_neg (by omega)]

/-- Reading after an octet string was written. -/
theorem Memory.read_writeBytes (m : List Host.Cell) (a : Nat) (bs : Octets) (x : Nat) :
    Memory.read (Memory.writeBytes m a bs) x =
      if a ≤ x ∧ x < a + bs.length then bs.getD (x - a) 0x00#8 else Memory.read m x := by
  induction bs generalizing m a with
  | nil => rw [Memory.writeBytes, if_neg (by simp only [List.length_nil]; omega)]
  | cons b bs ih =>
    rw [Memory.writeBytes, ih, Memory.read_write]
    simp only [List.length_cons]
    by_cases hx : x = a
    · subst hx
      rw [if_neg (by omega), if_pos rfl, if_pos (by omega)]
      simp
    · rw [if_neg hx]
      by_cases hr : a + 1 ≤ x ∧ x < a + 1 + bs.length
      · rw [if_pos hr, if_pos (by omega)]
        obtain ⟨k, rfl⟩ : ∃ k, x = a + 1 + k := ⟨x - (a + 1), by omega⟩
        rw [show a + 1 + k - (a + 1) = k by omega, show a + 1 + k - a = k + 1 by omega]
        simp
      · rw [if_neg hr, if_neg (by omega)]

/-! ### Strings read from memory -/

@[simp] theorem Memory.readBytes_length (m : List Host.Cell) (a n : Nat) : (Memory.readBytes m a n).length = n := by
  induction n generalizing a with
  | zero => rfl
  | succ n ih => simp [Memory.readBytes, ih]

theorem Memory.readBytes_getElem (m : List Host.Cell) (a n i : Nat) (h : i < (Memory.readBytes m a n).length) :
    (Memory.readBytes m a n)[i] = Memory.read m (a + i) := by
  induction n generalizing a i with
  | zero => simp at h
  | succ n ih =>
    cases i with
    | zero => simp [Memory.readBytes]
    | succ i => simp [Memory.readBytes, ih, Nat.add_assoc, Nat.add_comm 1]

theorem Memory.readBytes_getD (m : List Host.Cell) (a n i : Nat) (h : i < n) :
    (Memory.readBytes m a n).getD i 0x00#8 = Memory.read m (a + i) := by
  have hl : i < (Memory.readBytes m a n).length := by simpa using h
  rw [List.getD_eq_getElem?_getD, List.getElem?_eq_getElem hl, Option.getD_some, Memory.readBytes_getElem]

/-- Two memories that read alike over a range hold the same string there. -/
theorem Memory.readBytes_congr {m m' : List Host.Cell} {a n : Nat}
    (h : ∀ x, a ≤ x → x < a + n → Memory.read m x = Memory.read m' x) :
    Memory.readBytes m a n = Memory.readBytes m' a n := by
  induction n generalizing a with
  | zero => rfl
  | succ n ih =>
    rw [Memory.readBytes, Memory.readBytes, h a (by omega) (by omega), ih (fun x h1 h2 => h x (by omega) (by omega))]

/-- A string read back from where it was written. -/
theorem Memory.readBytes_writeBytes (m : List Host.Cell) (a : Nat) (bs : Octets) :
    Memory.readBytes (Memory.writeBytes m a bs) a bs.length = bs := by
  apply List.ext_getElem
  · simp
  · intro i h1 h2
    rw [Memory.readBytes_getElem, Memory.read_writeBytes, if_pos (by omega), show a + i - a = i by omega]
    simp [List.getD_eq_getElem?_getD, List.getElem?_eq_getElem h2]

/-- A string read in two pieces. -/
theorem Memory.readBytes_append (m : List Host.Cell) (a x y : Nat) :
    Memory.readBytes m a (x + y) = Memory.readBytes m a x ++ Memory.readBytes m (a + x) y := by
  induction x generalizing a with
  | zero => simp [Memory.readBytes]
  | succ x ih =>
    rw [Nat.succ_add]
    simp only [Memory.readBytes, List.cons_append]
    rw [ih, show a + 1 + x = a + (x + 1) by omega]

/-! ### The canonical form -/

theorem Memory.wf_nil : Memory.wf [] := by simp [Memory.wf]

theorem Memory.wf_clear {m : List Host.Cell} (h : Memory.wf m) (a n : Nat) : Memory.wf (Memory.clear m a n) :=
  ⟨h.1.filter _, fun c hc => h.2 c (List.mem_filter.mp hc).1⟩

theorem Memory.mem_insert {m : List Host.Cell} {a : Nat} {b : Byte} {c : Host.Cell} :
    c ∈ Memory.insert m a b ↔ c = (a, b) ∨ c ∈ m := by
  induction m with
  | nil => simp [Memory.insert]
  | cons d m ih =>
    rw [Memory.insert]
    split
    · simp
    · simp only [List.mem_cons, ih]
      constructor
      · rintro (h | h | h)
        · exact .inr (.inl h)
        · exact .inl h
        · exact .inr (.inr h)
      · rintro (h | h | h)
        · exact .inr (.inl h)
        · exact .inl h
        · exact .inr (.inr h)

theorem Memory.wf_insert {m : List Host.Cell} (h : Memory.wf m) {a : Nat} {b : Byte} (hb : b ≠ 0x00#8)
    (ha : ∀ c ∈ m, c.1 ≠ a) : Memory.wf (Memory.insert m a b) := by
  refine ⟨?_, fun c hc => ?_⟩
  · have hp := h.1
    clear h
    induction m with
    | nil => simp [Memory.insert]
    | cons d m ih =>
      have hd : d.1 ≠ a := ha d (by simp)
      rw [List.pairwise_cons] at hp
      rw [Memory.insert]
      split
      · next hlt =>
        refine List.pairwise_cons.mpr ⟨fun c hc => ?_, List.pairwise_cons.mpr hp⟩
        rcases List.mem_cons.mp hc with rfl | hc
        · exact hlt
        · exact Nat.lt_trans hlt (hp.1 c hc)
      · next hge =>
        refine List.pairwise_cons.mpr ⟨fun c hc => ?_, ih (fun c hc => ha c (by simp [hc])) hp.2⟩
        rcases Memory.mem_insert.mp hc with rfl | hc
        · show d.1 < a
          omega
        · exact hp.1 c hc
  · rcases Memory.mem_insert.mp hc with rfl | hc
    · exact hb
    · exact h.2 c hc

theorem Memory.wf_write {m : List Host.Cell} (h : Memory.wf m) (a : Nat) (b : Byte) : Memory.wf (Memory.write m a b) := by
  unfold Memory.write
  split
  · exact Memory.wf_clear h a 1
  · next hb => exact Memory.wf_insert (Memory.wf_clear h a 1) hb (fun _ hc => Memory.clear_ne hc)

theorem Memory.wf_writeBytes {m : List Host.Cell} (h : Memory.wf m) (a : Nat) (bs : Octets) :
    Memory.wf (Memory.writeBytes m a bs) := by
  induction bs generalizing m a with
  | nil => exact h
  | cons b bs ih => exact ih (Memory.wf_write h a b) (a + 1)

/-! ### Where cells can lie -/

theorem Memory.mem_of_mem_clear {m : List Host.Cell} {a n : Nat} {c : Host.Cell} (h : c ∈ Memory.clear m a n) : c ∈ m :=
  (List.mem_filter.mp h).1

theorem Memory.mem_write {m : List Host.Cell} {a : Nat} {b : Byte} {c : Host.Cell} (h : c ∈ Memory.write m a b) :
    c.1 = a ∨ c ∈ m := by
  unfold Memory.write at h
  split at h
  · exact .inr (Memory.mem_of_mem_clear h)
  · rcases Memory.mem_insert.mp h with rfl | h
    · exact .inl rfl
    · exact .inr (Memory.mem_of_mem_clear h)

theorem Memory.mem_writeBytes {m : List Host.Cell} {a : Nat} {bs : Octets} {c : Host.Cell}
    (h : c ∈ Memory.writeBytes m a bs) : (a ≤ c.1 ∧ c.1 < a + bs.length) ∨ c ∈ m := by
  induction bs generalizing m a with
  | nil => exact .inr h
  | cons b bs ih =>
    rcases ih h with ⟨h1, h2⟩ | h
    · simp only [List.length_cons]
      omega
    · rcases Memory.mem_write h with h | h
      · simp only [List.length_cons]
        omega
      · exact .inr h

/-! ### Equal memories are equal lists -/

theorem Memory.read_eq_zero {m : List Host.Cell} {a : Nat} (h : ∀ c ∈ m, c.1 ≠ a) : Memory.read m a = 0x00#8 := by
  induction m with
  | nil => rfl
  | cons c m ih =>
    rw [Memory.read_cons, if_neg (fun e => h c (by simp) e.symm), ih (fun d hd => h d (by simp [hd]))]

/-- Two memories in canonical form that read alike everywhere are the same list. -/
theorem Memory.ext_of_wf {m m' : List Host.Cell} (h : Memory.wf m) (h' : Memory.wf m')
    (hr : ∀ a, Memory.read m a = Memory.read m' a) : m = m' := by
  induction m generalizing m' with
  | nil =>
    cases m' with
    | nil => rfl
    | cons d m' =>
      have := hr d.1
      rw [Memory.read_nil, Memory.read_cons, if_pos rfl] at this
      exact absurd this.symm (h'.2 d (by simp))
  | cons c m ih =>
    have hp := List.pairwise_cons.mp h.1
    cases m' with
    | nil =>
      have := hr c.1
      rw [Memory.read_nil, Memory.read_cons, if_pos rfl] at this
      exact absurd this (h.2 c (by simp))
    | cons d m' =>
      have hp' := List.pairwise_cons.mp h'.1
      have tail_zero : ∀ {k : Host.Cell} {l : List Host.Cell}, (∀ e ∈ l, k.1 < e.1) → ∀ a, a ≤ k.1 → Memory.read l a = 0x00#8 :=
        fun hk a ha => Memory.read_eq_zero (fun e he => by have := hk e he; omega)
      have hcd : c.1 = d.1 := by
        rcases Nat.lt_trichotomy c.1 d.1 with hlt | heq | hgt
        · have := hr c.1
          rw [Memory.read_cons, if_pos rfl, Memory.read_cons, if_neg (by omega), tail_zero hp'.1 _ (by omega)] at this
          exact absurd this (h.2 c (by simp))
        · exact heq
        · have := hr d.1
          rw [Memory.read_cons, if_neg (by omega), tail_zero hp.1 _ (by omega), Memory.read_cons, if_pos rfl] at this
          exact absurd this.symm (h'.2 d (by simp))
      have hv : c.2 = d.2 := by
        have := hr c.1
        rwa [Memory.read_cons, if_pos rfl, Memory.read_cons, if_pos hcd] at this
      have ht : m = m' := by
        refine ih ⟨hp.2, fun e he => h.2 e (by simp [he])⟩ ⟨hp'.2, fun e he => h'.2 e (by simp [he])⟩ (fun a => ?_)
        by_cases ha : a = c.1
        · rw [tail_zero hp.1 _ (by omega), tail_zero hp'.1 _ (by omega)]
        · have := hr a
          rwa [Memory.read_cons, if_neg ha, Memory.read_cons, if_neg (by omega)] at this
      rw [ht, show c = d from Prod.ext hcd hv]

end Sys2Proof.Machine
end

