-- ==== Sys2Proof/Laws/State.lean ====
section
/-! SUPPORT. For each operation that updates the state, what each field of the state is after it: one lemma per field, true by
rfl, so that no later proof unfolds a record update. -/

namespace Sys2Proof.Machine

/-! ### issue -/

@[simp] theorem issue_cfg (s : State) (w : Word) : (issue s w).cfg = s.cfg := rfl
@[simp] theorem issue_mem (s : State) (w : Word) : (issue s w).mem = s.mem := rfl
@[simp] theorem issue_alen (s : State) (w : Word) : (issue s w).alen = s.alen := rfl
@[simp] theorem issue_mlen (s : State) (w : Word) : (issue s w).mlen = s.mlen := rfl
@[simp] theorem issue_llen (s : State) (w : Word) : (issue s w).llen = s.llen := rfl
@[simp] theorem issue_olen (s : State) (w : Word) : (issue s w).olen = s.olen := rfl
@[simp] theorem issue_ie (s : State) (w : Word) : (issue s w).ie = s.ie := rfl
@[simp] theorem issue_seq (s : State) (w : Word) : (issue s w).seq = .busy := rfl
@[simp] theorem issue_cmdr (s : State) (w : Word) : (issue s w).cmdr = w := rfl
@[simp] theorem issue_done (s : State) (w : Word) : (issue s w).done = false := rfl
@[simp] theorem issue_errcode (s : State) (w : Word) : (issue s w).errcode = 0#4 := rfl
@[simp] theorem issue_scratch (s : State) (w : Word) : (issue s w).scratch = s.scratch := rfl
@[simp] theorem issue_env (s : State) (w : Word) : (issue s w).env = s.env := rfl

/-! ### clearOutputs -/

@[simp] theorem clearOutputs_cfg (s : State) : (clearOutputs s).cfg = s.cfg := rfl
@[simp] theorem clearOutputs_mem (s : State) : (clearOutputs s).mem = 
      Memory.clear (Memory.clear s.mem (windowBase .obuf) (windowCap s.cfg .obuf)) (windowBase .ywin)
        (windowCap s.cfg .ywin) := rfl
@[simp] theorem clearOutputs_alen (s : State) : (clearOutputs s).alen = s.alen := rfl
@[simp] theorem clearOutputs_mlen (s : State) : (clearOutputs s).mlen = s.mlen := rfl
@[simp] theorem clearOutputs_llen (s : State) : (clearOutputs s).llen = s.llen := rfl
@[simp] theorem clearOutputs_olen (s : State) : (clearOutputs s).olen = 0#32 := rfl
@[simp] theorem clearOutputs_ie (s : State) : (clearOutputs s).ie = s.ie := rfl
@[simp] theorem clearOutputs_seq (s : State) : (clearOutputs s).seq = s.seq := rfl
@[simp] theorem clearOutputs_cmdr (s : State) : (clearOutputs s).cmdr = s.cmdr := rfl
@[simp] theorem clearOutputs_done (s : State) : (clearOutputs s).done = s.done := rfl
@[simp] theorem clearOutputs_errcode (s : State) : (clearOutputs s).errcode = s.errcode := rfl
@[simp] theorem clearOutputs_scratch (s : State) : (clearOutputs s).scratch = s.scratch := rfl
@[simp] theorem clearOutputs_env (s : State) : (clearOutputs s).env = s.env := rfl

/-! ### finish -/

@[simp] theorem finish_cfg (s : State) (code : BitVec 4) : (finish s code).cfg = s.cfg := rfl
@[simp] theorem finish_mem (s : State) (code : BitVec 4) : (finish s code).mem = s.mem := rfl
@[simp] theorem finish_alen (s : State) (code : BitVec 4) : (finish s code).alen = s.alen := rfl
@[simp] theorem finish_mlen (s : State) (code : BitVec 4) : (finish s code).mlen = s.mlen := rfl
@[simp] theorem finish_llen (s : State) (code : BitVec 4) : (finish s code).llen = s.llen := rfl
@[simp] theorem finish_olen (s : State) (code : BitVec 4) : (finish s code).olen = s.olen := rfl
@[simp] theorem finish_ie (s : State) (code : BitVec 4) : (finish s code).ie = s.ie := rfl
@[simp] theorem finish_seq (s : State) (code : BitVec 4) : (finish s code).seq = .idle := rfl
@[simp] theorem finish_cmdr (s : State) (code : BitVec 4) : (finish s code).cmdr = s.cmdr := rfl
@[simp] theorem finish_done (s : State) (code : BitVec 4) : (finish s code).done = true := rfl
@[simp] theorem finish_errcode (s : State) (code : BitVec 4) : (finish s code).errcode = code := rfl
@[simp] theorem finish_scratch (s : State) (code : BitVec 4) : (finish s code).scratch = Scratch.zero := rfl
@[simp] theorem finish_env (s : State) (code : BitVec 4) : (finish s code).env = s.env := rfl

/-! ### raiseError -/

@[simp] theorem raiseError_cfg (s : State) (e : CoreError) : (raiseError s e).cfg = s.cfg := rfl
@[simp] theorem raiseError_mem (s : State) (e : CoreError) : (raiseError s e).mem = (clearOutputs s).mem := rfl
@[simp] theorem raiseError_alen (s : State) (e : CoreError) : (raiseError s e).alen = s.alen := rfl
@[simp] theorem raiseError_mlen (s : State) (e : CoreError) : (raiseError s e).mlen = s.mlen := rfl
@[simp] theorem raiseError_llen (s : State) (e : CoreError) : (raiseError s e).llen = s.llen := rfl
@[simp] theorem raiseError_olen (s : State) (e : CoreError) : (raiseError s e).olen = 0#32 := rfl
@[simp] theorem raiseError_ie (s : State) (e : CoreError) : (raiseError s e).ie = s.ie := rfl
@[simp] theorem raiseError_seq (s : State) (e : CoreError) : (raiseError s e).seq = .idle := rfl
@[simp] theorem raiseError_cmdr (s : State) (e : CoreError) : (raiseError s e).cmdr = s.cmdr := rfl
@[simp] theorem raiseError_done (s : State) (e : CoreError) : (raiseError s e).done = true := rfl
@[simp] theorem raiseError_errcode (s : State) (e : CoreError) : (raiseError s e).errcode = errorCode e := rfl
@[simp] theorem raiseError_scratch (s : State) (e : CoreError) : (raiseError s e).scratch = Scratch.zero := rfl
@[simp] theorem raiseError_env (s : State) (e : CoreError) : (raiseError s e).env = s.env := rfl

/-! ### completeIllegal -/

@[simp] theorem completeIllegal_cfg (s : State) : (completeIllegal s).cfg = s.cfg := rfl
@[simp] theorem completeIllegal_mem (s : State) : (completeIllegal s).mem = s.mem := rfl
@[simp] theorem completeIllegal_alen (s : State) : (completeIllegal s).alen = s.alen := rfl
@[simp] theorem completeIllegal_mlen (s : State) : (completeIllegal s).mlen = s.mlen := rfl
@[simp] theorem completeIllegal_llen (s : State) : (completeIllegal s).llen = s.llen := rfl
@[simp] theorem completeIllegal_olen (s : State) : (completeIllegal s).olen = s.olen := rfl
@[simp] theorem completeIllegal_ie (s : State) : (completeIllegal s).ie = s.ie := rfl
@[simp] theorem completeIllegal_seq (s : State) : (completeIllegal s).seq = .idle := rfl
@[simp] theorem completeIllegal_cmdr (s : State) : (completeIllegal s).cmdr = s.cmdr := rfl
@[simp] theorem completeIllegal_done (s : State) : (completeIllegal s).done = true := rfl
@[simp] theorem completeIllegal_errcode (s : State) : (completeIllegal s).errcode = 7#4 := rfl
@[simp] theorem completeIllegal_scratch (s : State) : (completeIllegal s).scratch = Scratch.zero := rfl
@[simp] theorem completeIllegal_env (s : State) : (completeIllegal s).env = s.env := rfl

/-! ### clearDone -/

@[simp] theorem clearDone_cfg (s : State) : (clearDone s).cfg = s.cfg := rfl
@[simp] theorem clearDone_mem (s : State) : (clearDone s).mem = s.mem := rfl
@[simp] theorem clearDone_alen (s : State) : (clearDone s).alen = s.alen := rfl
@[simp] theorem clearDone_mlen (s : State) : (clearDone s).mlen = s.mlen := rfl
@[simp] theorem clearDone_llen (s : State) : (clearDone s).llen = s.llen := rfl
@[simp] theorem clearDone_olen (s : State) : (clearDone s).olen = s.olen := rfl
@[simp] theorem clearDone_ie (s : State) : (clearDone s).ie = s.ie := rfl
@[simp] theorem clearDone_seq (s : State) : (clearDone s).seq = s.seq := rfl
@[simp] theorem clearDone_cmdr (s : State) : (clearDone s).cmdr = s.cmdr := rfl
@[simp] theorem clearDone_done (s : State) : (clearDone s).done = false := rfl
@[simp] theorem clearDone_errcode (s : State) : (clearDone s).errcode = s.errcode := rfl
@[simp] theorem clearDone_scratch (s : State) : (clearDone s).scratch = s.scratch := rfl
@[simp] theorem clearDone_env (s : State) : (clearDone s).env = s.env := rfl

/-! ### putWindow -/

@[simp] theorem putWindow_cfg (s : State) (w : Window) (xs : Octets) : (putWindow s w xs).cfg = s.cfg := rfl
@[simp] theorem putWindow_mem (s : State) (w : Window) (xs : Octets) : (putWindow s w xs).mem = Memory.writeBytes s.mem (windowBase w) xs := rfl
@[simp] theorem putWindow_alen (s : State) (w : Window) (xs : Octets) : (putWindow s w xs).alen = s.alen := rfl
@[simp] theorem putWindow_mlen (s : State) (w : Window) (xs : Octets) : (putWindow s w xs).mlen = s.mlen := rfl
@[simp] theorem putWindow_llen (s : State) (w : Window) (xs : Octets) : (putWindow s w xs).llen = s.llen := rfl
@[simp] theorem putWindow_olen (s : State) (w : Window) (xs : Octets) : (putWindow s w xs).olen = s.olen := rfl
@[simp] theorem putWindow_ie (s : State) (w : Window) (xs : Octets) : (putWindow s w xs).ie = s.ie := rfl
@[simp] theorem putWindow_seq (s : State) (w : Window) (xs : Octets) : (putWindow s w xs).seq = s.seq := rfl
@[simp] theorem putWindow_cmdr (s : State) (w : Window) (xs : Octets) : (putWindow s w xs).cmdr = s.cmdr := rfl
@[simp] theorem putWindow_done (s : State) (w : Window) (xs : Octets) : (putWindow s w xs).done = s.done := rfl
@[simp] theorem putWindow_errcode (s : State) (w : Window) (xs : Octets) : (putWindow s w xs).errcode = s.errcode := rfl
@[simp] theorem putWindow_scratch (s : State) (w : Window) (xs : Octets) : (putWindow s w xs).scratch = s.scratch := rfl
@[simp] theorem putWindow_env (s : State) (w : Window) (xs : Octets) : (putWindow s w xs).env = s.env := rfl

/-! ### putString -/

@[simp] theorem putString_cfg (s : State) (xs : Octets) : (putString s xs).cfg = s.cfg := rfl
@[simp] theorem putString_mem (s : State) (xs : Octets) : (putString s xs).mem = Memory.writeBytes s.mem (windowBase .obuf) xs := rfl
@[simp] theorem putString_alen (s : State) (xs : Octets) : (putString s xs).alen = s.alen := rfl
@[simp] theorem putString_mlen (s : State) (xs : Octets) : (putString s xs).mlen = s.mlen := rfl
@[simp] theorem putString_llen (s : State) (xs : Octets) : (putString s xs).llen = s.llen := rfl
@[simp] theorem putString_olen (s : State) (xs : Octets) : (putString s xs).olen = BitVec.ofNat 32 xs.length := rfl
@[simp] theorem putString_ie (s : State) (xs : Octets) : (putString s xs).ie = s.ie := rfl
@[simp] theorem putString_seq (s : State) (xs : Octets) : (putString s xs).seq = s.seq := rfl
@[simp] theorem putString_cmdr (s : State) (xs : Octets) : (putString s xs).cmdr = s.cmdr := rfl
@[simp] theorem putString_done (s : State) (xs : Octets) : (putString s xs).done = s.done := rfl
@[simp] theorem putString_errcode (s : State) (xs : Octets) : (putString s xs).errcode = s.errcode := rfl
@[simp] theorem putString_scratch (s : State) (xs : Octets) : (putString s xs).scratch = s.scratch := rfl
@[simp] theorem putString_env (s : State) (xs : Octets) : (putString s xs).env = s.env := rfl

/-! ### resetBlock -/

@[simp] theorem resetBlock_cfg (s : State) : (resetBlock s).cfg = s.cfg := rfl
@[simp] theorem resetBlock_mem (s : State) : (resetBlock s).mem = [] := rfl
@[simp] theorem resetBlock_alen (s : State) : (resetBlock s).alen = 0#64 := rfl
@[simp] theorem resetBlock_mlen (s : State) : (resetBlock s).mlen = 0#32 := rfl
@[simp] theorem resetBlock_llen (s : State) : (resetBlock s).llen = 0#32 := rfl
@[simp] theorem resetBlock_olen (s : State) : (resetBlock s).olen = 0#32 := rfl
@[simp] theorem resetBlock_ie (s : State) : (resetBlock s).ie = false := rfl
@[simp] theorem resetBlock_seq (s : State) : (resetBlock s).seq = .idle := rfl
@[simp] theorem resetBlock_cmdr (s : State) : (resetBlock s).cmdr = 0#32 := rfl
@[simp] theorem resetBlock_done (s : State) : (resetBlock s).done = false := rfl
@[simp] theorem resetBlock_errcode (s : State) : (resetBlock s).errcode = 0#4 := rfl
@[simp] theorem resetBlock_scratch (s : State) : (resetBlock s).scratch = Scratch.zero := rfl
@[simp] theorem resetBlock_env (s : State) : (resetBlock s).env = s.env := rfl

/-! ### drawTaken -/

@[simp] theorem drawTaken_cfg (s : State) : (drawTaken s).cfg = s.cfg := rfl
@[simp] theorem drawTaken_mem (s : State) : (drawTaken s).mem = s.mem := rfl
@[simp] theorem drawTaken_alen (s : State) : (drawTaken s).alen = s.alen := rfl
@[simp] theorem drawTaken_mlen (s : State) : (drawTaken s).mlen = s.mlen := rfl
@[simp] theorem drawTaken_llen (s : State) : (drawTaken s).llen = s.llen := rfl
@[simp] theorem drawTaken_olen (s : State) : (drawTaken s).olen = s.olen := rfl
@[simp] theorem drawTaken_ie (s : State) : (drawTaken s).ie = s.ie := rfl
@[simp] theorem drawTaken_seq (s : State) : (drawTaken s).seq = s.seq := rfl
@[simp] theorem drawTaken_cmdr (s : State) : (drawTaken s).cmdr = s.cmdr := rfl
@[simp] theorem drawTaken_done (s : State) : (drawTaken s).done = s.done := rfl
@[simp] theorem drawTaken_errcode (s : State) : (drawTaken s).errcode = s.errcode := rfl
@[simp] theorem drawTaken_scratch (s : State) : (drawTaken s).scratch = s.scratch := rfl
@[simp] theorem drawTaken_env (s : State) : (drawTaken s).env = { s.env with draws := s.env.draws.tail, asked := s.env.asked + 1 } := rfl

/-! ### dropEvent -/

@[simp] theorem dropEvent_cfg (s : State) : (dropEvent s).cfg = s.cfg := rfl
@[simp] theorem dropEvent_mem (s : State) : (dropEvent s).mem = s.mem := rfl
@[simp] theorem dropEvent_alen (s : State) : (dropEvent s).alen = s.alen := rfl
@[simp] theorem dropEvent_mlen (s : State) : (dropEvent s).mlen = s.mlen := rfl
@[simp] theorem dropEvent_llen (s : State) : (dropEvent s).llen = s.llen := rfl
@[simp] theorem dropEvent_olen (s : State) : (dropEvent s).olen = s.olen := rfl
@[simp] theorem dropEvent_ie (s : State) : (dropEvent s).ie = s.ie := rfl
@[simp] theorem dropEvent_seq (s : State) : (dropEvent s).seq = s.seq := rfl
@[simp] theorem dropEvent_cmdr (s : State) : (dropEvent s).cmdr = s.cmdr := rfl
@[simp] theorem dropEvent_done (s : State) : (dropEvent s).done = s.done := rfl
@[simp] theorem dropEvent_errcode (s : State) : (dropEvent s).errcode = s.errcode := rfl
@[simp] theorem dropEvent_scratch (s : State) : (dropEvent s).scratch = s.scratch := rfl
@[simp] theorem dropEvent_env (s : State) : (dropEvent s).env = { s.env with agenda := s.env.agenda.tail } := rfl

/-! ### record -/

@[simp] theorem record_cfg (s : State) (a : Answer) : (record s a).cfg = s.cfg := rfl
@[simp] theorem record_mem (s : State) (a : Answer) : (record s a).mem = s.mem := rfl
@[simp] theorem record_alen (s : State) (a : Answer) : (record s a).alen = s.alen := rfl
@[simp] theorem record_mlen (s : State) (a : Answer) : (record s a).mlen = s.mlen := rfl
@[simp] theorem record_llen (s : State) (a : Answer) : (record s a).llen = s.llen := rfl
@[simp] theorem record_olen (s : State) (a : Answer) : (record s a).olen = s.olen := rfl
@[simp] theorem record_ie (s : State) (a : Answer) : (record s a).ie = s.ie := rfl
@[simp] theorem record_seq (s : State) (a : Answer) : (record s a).seq = s.seq := rfl
@[simp] theorem record_cmdr (s : State) (a : Answer) : (record s a).cmdr = s.cmdr := rfl
@[simp] theorem record_done (s : State) (a : Answer) : (record s a).done = s.done := rfl
@[simp] theorem record_errcode (s : State) (a : Answer) : (record s a).errcode = s.errcode := rfl
@[simp] theorem record_scratch (s : State) (a : Answer) : (record s a).scratch = s.scratch := rfl
@[simp] theorem record_env (s : State) (a : Answer) : (record s a).env = { s.env with answers := a :: s.env.answers } := rfl

/-! ### afterDraw: the state itself, but for the outside world -/

@[simp] theorem afterDraw_cfg (s : State) : (afterDraw s).cfg = s.cfg := by unfold afterDraw; split <;> rfl
@[simp] theorem afterDraw_mem (s : State) : (afterDraw s).mem = s.mem := by unfold afterDraw; split <;> rfl
@[simp] theorem afterDraw_alen (s : State) : (afterDraw s).alen = s.alen := by unfold afterDraw; split <;> rfl
@[simp] theorem afterDraw_mlen (s : State) : (afterDraw s).mlen = s.mlen := by unfold afterDraw; split <;> rfl
@[simp] theorem afterDraw_llen (s : State) : (afterDraw s).llen = s.llen := by unfold afterDraw; split <;> rfl
@[simp] theorem afterDraw_olen (s : State) : (afterDraw s).olen = s.olen := by unfold afterDraw; split <;> rfl
@[simp] theorem afterDraw_ie (s : State) : (afterDraw s).ie = s.ie := by unfold afterDraw; split <;> rfl
@[simp] theorem afterDraw_seq (s : State) : (afterDraw s).seq = s.seq := by unfold afterDraw; split <;> rfl
@[simp] theorem afterDraw_cmdr (s : State) : (afterDraw s).cmdr = s.cmdr := by unfold afterDraw; split <;> rfl
@[simp] theorem afterDraw_done (s : State) : (afterDraw s).done = s.done := by unfold afterDraw; split <;> rfl
@[simp] theorem afterDraw_errcode (s : State) : (afterDraw s).errcode = s.errcode := by unfold afterDraw; split <;> rfl
@[simp] theorem afterDraw_scratch (s : State) : (afterDraw s).scratch = s.scratch := by unfold afterDraw; split <;> rfl

end Sys2Proof.Machine
end

