-- ==== Sys2Proof/Laws/Windows.lean ====
section
/-! SUPPORT. The windows lie on pages of their own: what clearing the outputs, writing a result and the end of a command leave in
memory, and that a command's operands are the same before and after its outputs are cleared (30_encoding R93). -/

namespace Sys2Proof.Machine

theorem inWindow_iff {c : Config} {w : Window} {a : Nat} :
    inWindow c w a = true ↔ windowBase w ≤ a ∧ a < windowBase w + windowCap c w := by
  simp [inWindow]

theorem inWindow_false_iff {c : Config} {w : Window} {a : Nat} :
    inWindow c w a = false ↔ ¬(windowBase w ≤ a ∧ a < windowBase w + windowCap c w) := by
  rw [← inWindow_iff, Bool.not_eq_true]

/-- Every window starts a page of its own, in the pages 1 to 8 (20_memory R61). -/
theorem windowBase_page (w : Window) :
    windowBase w % 0x1000 = 0 ∧ 0x1000 ≤ windowBase w ∧ windowBase w ≤ 0x8000 ∧
      windowOfPage (windowBase w / 0x1000) = some w := by
  cases w <;> exact ⟨rfl, by decide, by decide, rfl⟩

/-- No window is longer than its page (00_scope R7). -/
theorem windowCap_le {c : Config} (hc : c.Valid) (w : Window) : windowCap c w ≤ 4096 := by
  obtain ⟨h1, h2, h3, _⟩ := hc
  cases w <;> simp only [windowCap] <;> omega

/-- An octet of one window's page is in no other window. -/
theorem not_inWindow_of_page {c : Config} (hc : c.Valid) {v w : Window} (h : v ≠ w) {a : Nat}
    (h1 : windowBase w ≤ a) (h2 : a < windowBase w + 4096) : inWindow c v a = false := by
  have hv := windowCap_le hc v
  rw [inWindow_false_iff]
  cases v <;> cases w <;> first | exact absurd rfl h | (simp only [windowBase] at *; omega)

/-- An octet is in at most one window. -/
theorem inWindow_unique {c : Config} (hc : c.Valid) {v w : Window} {a : Nat} (h1 : inWindow c v a = true)
    (h2 : inWindow c w a = true) : v = w := by
  by_cases h : v = w
  · exact h
  · rw [inWindow_iff] at h2
    have := windowCap_le hc w
    rw [not_inWindow_of_page hc h h2.1 (by omega)] at h1
    cases h1

/-! ### Reads after the outputs are cleared and after a result is written -/

/-- After the outputs are cleared OBUF and YWIN read zero, everything else as before (44_control R185). -/
theorem read_clearOutputs (s : State) (a : Nat) :
    Memory.read (clearOutputs s).mem a =
      if inWindow s.cfg .obuf a ∨ inWindow s.cfg .ywin a then 0x00#8 else Memory.read s.mem a := by
  rw [clearOutputs_mem, Memory.read_clear, Memory.read_clear]
  simp only [inWindow_iff]
  by_cases h1 : windowBase .ywin ≤ a ∧ a < windowBase .ywin + windowCap s.cfg .ywin
  · rw [if_pos h1, if_pos (.inr h1)]
  · rw [if_neg h1]
    by_cases h2 : windowBase .obuf ≤ a ∧ a < windowBase .obuf + windowCap s.cfg .obuf
    · rw [if_pos h2, if_pos (.inl h2)]
    · rw [if_neg h2, if_neg (by rintro (h | h) <;> contradiction)]

/-- A result string written to a cleared output window `w`: its octets from the window's start on, the rest of the outputs zero, all
else as before. -/
theorem read_putWindow_clearOutputs (s : State) {w : Window} (hw : w = .obuf ∨ w = .ywin) {xs : Octets}
    (hl : xs.length ≤ windowCap s.cfg w) (a : Nat) :
    Memory.read (putWindow (clearOutputs s) w xs).mem a =
      if inWindow s.cfg w a then xs.getD (a - windowBase w) 0x00#8
      else if inWindow s.cfg .obuf a ∨ inWindow s.cfg .ywin a then 0x00#8 else Memory.read s.mem a := by
  rw [putWindow_mem, Memory.read_writeBytes, read_clearOutputs]
  by_cases hin : inWindow s.cfg w a = true
  · rw [if_pos hin]
    have hin' := inWindow_iff.mp hin
    by_cases hr : windowBase w ≤ a ∧ a < windowBase w + xs.length
    · rw [if_pos hr]
    · rw [if_neg hr, if_pos (by rcases hw with rfl | rfl <;> simp [hin])]
      rw [List.getD_eq_getElem?_getD, List.getElem?_eq_none (by omega), Option.getD_none]
  · rw [if_neg hin]
    rw [inWindow_iff] at hin
    rw [if_neg (by omega)]

/-- The same for a string result with its length. -/
theorem read_putString_clearOutputs (s : State) {xs : Octets} (hl : xs.length ≤ windowCap s.cfg .obuf) (a : Nat) :
    Memory.read (putString (clearOutputs s) xs).mem a =
      if inWindow s.cfg .obuf a then xs.getD (a - windowBase .obuf) 0x00#8
      else if inWindow s.cfg .obuf a ∨ inWindow s.cfg .ywin a then 0x00#8 else Memory.read s.mem a :=
  read_putWindow_clearOutputs s (.inl rfl) hl a

/-! ### Operands are no outputs -/

/-- Clearing the outputs changes no octet of the other windows, so a command may read its operands before or after (30_encoding R93;
log 12). -/
theorem windowPart_clearOutputs {s : State} (hc : s.cfg.Valid) {w : Window} (h1 : w ≠ .obuf) (h2 : w ≠ .ywin) {n : Nat}
    (hn : n ≤ 4096) : windowPart (clearOutputs s) w n = windowPart s w n := by
  apply Memory.readBytes_congr
  intro x hx1 hx2
  rw [read_clearOutputs, not_inWindow_of_page hc (Ne.symm h1) hx1 (by omega),
    not_inWindow_of_page hc (Ne.symm h2) hx1 (by omega)]
  simp

/-- A window read after it was written from its start. -/
theorem windowPart_putWindow (s : State) (w : Window) (xs : Octets) : windowPart (putWindow s w xs) w xs.length = xs :=
  Memory.readBytes_writeBytes s.mem (windowBase w) xs

/-! ### Sizes of operands -/

@[simp] theorem windowPart_length (s : State) (w : Window) (n : Nat) : (windowPart s w n).length = n := by
  simp [windowPart]

@[simp] theorem mbufString_length (s : State) : (mbufString s).length = s.mlen.toNat := by simp [mbufString]

@[simp] theorem labelString_length (s : State) : (labelString s).length = s.llen.toNat := by simp [labelString]

/-- An integer window holds a value below `256^KMAX` (10_state R22). -/
theorem intOf_lt (s : State) (w : Window) : intOf s w < 256 ^ s.cfg.kmax := by
  have := os2ip_lt (windowPart s w s.cfg.kmax)
  rwa [windowPart_length] at this

/-- `0 <= K <= KMAX` (10_state R35). -/
theorem kOf_le (s : State) : kOf s ≤ s.cfg.kmax := byteLen_le (intOf_lt s .nwin)

/-- What the randomness port answers has HLEN octets (10_state R45). -/
theorem drawAnswer_length {s : State} {x : Octets} (h : drawAnswer s = some x) : x.length = s.cfg.hlen := by
  unfold drawAnswer at h
  split at h <;> simpa using (Option.filter_eq_some_iff.mp h).2

end Sys2Proof.Machine
end

