-- ==== Sys2Proof/Laws/Exec.lean ====
section
/-! SUPPORT. Everything a step can do, said once per shared operation: the ends a command can have, what a host write can change, and
the step's own cases. -/

namespace Sys2Proof.Machine

/-! ### The two ways a data command ends -/

/-- A data command with an integer result: the error taken, or the result in YWIN. -/
theorem completeInt_cases (s : State) (r : Except CoreError Nat) :
    (∃ e, r = .error e ∧ completeInt s r = raiseError s e) ∨
    (∃ v, r = .ok v ∧ 256 ^ s.cfg.kmax ≤ v ∧ completeInt s r = raiseError s .integerTooLarge) ∨
    (∃ v, r = .ok v ∧ v < 256 ^ s.cfg.kmax ∧
      completeInt s r = finish (putWindow (clearOutputs s) .ywin (octetsOf v s.cfg.kmax)) 0#4) := by
  cases r with
  | error e => exact .inl ⟨e, rfl, rfl⟩
  | ok v =>
    by_cases h : v < 256 ^ s.cfg.kmax
    · exact .inr (.inr ⟨v, rfl, h, by simp only [completeInt, i2osp_of_lt h]⟩)
    · exact .inr (.inl ⟨v, rfl, by omega, by simp only [completeInt, i2osp_of_ge (by omega : 256 ^ s.cfg.kmax ≤ v)]⟩)

/-- A data command with a string result: the error taken, or the result in OBUF and its length in OLEN. -/
theorem completeString_cases (s : State) (r : Except CoreError Octets) :
    (∃ e, r = .error e ∧ completeString s r = raiseError s e) ∨
    (∃ xs, r = .ok xs ∧ completeString s r =
      finish (putString (clearOutputs s) xs) 0#4) := by
  cases r with
  | error e => exact .inl ⟨e, rfl, rfl⟩
  | ok xs => exact .inr ⟨xs, rfl, rfl⟩

/-! ### The results of the commands fit their outputs -/

theorem i2ospResult_ok {c : Config} {x n : Nat} {xs : Octets} (h : i2ospResult c x n = .ok xs) :
    xs.length = n ∧ n ≤ c.bmax := by
  unfold i2ospResult at h
  split at h
  · cases h
  · split at h
    · cases h
    · unfold i2osp at h
      split at h
      · cases h
      · cases h
        simp only [octetsOf_length, true_and]
        omega

theorem i2ospResult_not_defect {c : Config} {x n : Nat} {e : CoreError} (h : i2ospResult c x n = .error e) :
    e ≠ .internalDefect := by
  unfold i2ospResult at h
  split at h
  · cases h
    decide
  · split at h
    · cases h
      decide
    · exact i2osp_not_defect h

theorem mgf1Result_ok {c : Config} {seed xs : Octets} {n : Nat} (hc : 1 ≤ c.hlen) (h : mgf1Result c seed n = .ok xs) :
    xs.length = n ∧ n ≤ c.bmax := by
  unfold mgf1Result at h
  split at h
  · cases h
  · split at h
    · cases h
    · exact ⟨mgf_length hc h, by omega⟩

theorem mgf1Result_not_defect {c : Config} {seed : Octets} {n : Nat} {e : CoreError} (h : mgf1Result c seed n = .error e) :
    e ≠ .internalDefect := by
  unfold mgf1Result at h
  split at h
  · cases h
    decide
  · split at h
    · cases h
      decide
    · exact mgf_not_defect h

theorem os2ipResult_ok {c : Config} {xs : Octets} {v : Nat} (h : os2ipResult c xs = .ok v) :
    v = os2ip xs ∧ v < 256 ^ c.kmax := by
  unfold os2ipResult at h
  split at h
  · cases h
  · cases h
    exact ⟨rfl, by omega⟩

theorem os2ipResult_not_defect {c : Config} {xs : Octets} {e : CoreError} (h : os2ipResult c xs = .error e) :
    e ≠ .internalDefect := by
  unfold os2ipResult at h
  split at h <;> cases h
  decide

theorem modExpLoop_lt {b x n : Nat} (hn : 0 < n) (i r : Nat) (hr : r < n) : modExpLoop b x n i r < n := by
  induction i generalizing r with
  | zero => exact hr
  | succ i ih =>
    rw [modExpLoop]
    apply ih
    split <;> exact Nat.mod_lt _ hn

/-- A primitive's result is below the modulus (43_rsa R155). -/
theorem prim_ok_lt {v x n r : Nat} (h : prim v x n = .ok r) : r < n := by
  unfold prim at h
  split at h
  · cases h
  · cases h
    exact modExpLoop_lt (by omega) _ _ (Nat.mod_lt _ (by omega))

/-! ### Every end a command can have -/

/-- The ends of a data command: an error taken, a string in OBUF, or an integer in YWIN; `u` is `s`, or `s` with the randomness port
asked. -/
def DataEnd (s : State) (o : Host.Outcome State Fault Refusal) : Prop :=
  (∃ u e, (u = s ∨ u = drawTaken s) ∧ e ≠ CoreError.internalDefect ∧ o = .next (raiseError u e)) ∨
  (∃ (u : State) (xs : Octets), (u = s ∨ u = drawTaken s) ∧ xs.length ≤ s.cfg.bmax ∧
    o = .next (finish (putString (clearOutputs u) xs) 0#4)) ∨
  ∃ xs : Octets, xs.length = s.cfg.kmax ∧ o = .next (finish (putWindow (clearOutputs s) .ywin xs) 0#4)

theorem completeString_end {s u : State} {r : Except CoreError Octets} (hu : u = s ∨ u = drawTaken s)
    (hok : ∀ xs, r = .ok xs → xs.length ≤ s.cfg.bmax) (her : ∀ e, r = .error e → e ≠ .internalDefect) :
    DataEnd s (.next (completeString u r)) := by
  rcases completeString_cases u r with ⟨e, he, h⟩ | ⟨xs, he, h⟩
  · exact .inl ⟨u, e, hu, her e he, by rw [h]⟩
  · exact .inr (.inl ⟨u, xs, hu, hok xs he, by rw [h]⟩)

theorem completeInt_end {s : State} {r : Except CoreError Nat} (her : ∀ e, r = .error e → e ≠ .internalDefect) :
    DataEnd s (.next (completeInt s r)) := by
  rcases completeInt_cases s r with ⟨e, he, h⟩ | ⟨v, _, _, h⟩ | ⟨v, _, _, h⟩
  · exact .inl ⟨s, e, .inl rfl, her e he, by rw [h]⟩
  · exact .inl ⟨s, .integerTooLarge, .inl rfl, by decide, by rw [h]⟩
  · exact .inr (.inr ⟨octetsOf v s.cfg.kmax, by simp, by rw [h]⟩)

theorem afterDraw_cases (s : State) : afterDraw s = s ∨ afterDraw s = drawTaken s := by
  unfold afterDraw
  split
  · exact .inr rfl
  · exact .inl rfl

/-- Everything a command's COMPLETE can answer (44_control R184): NOP's end, or one of the ends of a data command. -/
theorem exec_cases (i : Instr) (s : State) (hc : s.cfg.Valid) :
    (i = .nop ∧ exec i s = .next (finish s 0#4)) ∨ DataEnd s (exec i s) := by
  have hlen : 1 ≤ s.cfg.hlen := hc.2.2.2.1.1
  have hbk : s.cfg.kmax ≤ s.cfg.bmax := hc.2.1.2.1
  have hk : byteLen (intOf s .nwin) ≤ s.cfg.kmax := kOf_le s
  cases i with
  | nop => exact .inl ⟨rfl, rfl⟩
  | i2osp =>
    exact .inr (completeString_end (.inl rfl) (fun xs h => by have := i2ospResult_ok h; omega)
      (fun e h => i2ospResult_not_defect h))
  | os2ip => exact .inr (completeInt_end (fun e h => os2ipResult_not_defect h))
  | mgf1 =>
    exact .inr (completeString_end (.inl rfl) (fun xs h => by have := mgf1Result_ok hlen h; omega)
      (fun e h => mgf1Result_not_defect h))
  | rsaep => exact .inr (completeInt_end (fun e h => prim_not_defect h))
  | rsadp => exact .inr (completeInt_end (fun e h => prim_not_defect h))
  | rsasp1 => exact .inr (completeInt_end (fun e h => prim_not_defect h))
  | rsavp1 => exact .inr (completeInt_end (fun e h => prim_not_defect h))
  | oaepEnc =>
    refine .inr (completeString_end (afterDraw_cases s) (fun xs h => ?_) (fun e h => oaepEncode_not_defect h))
    have := oaepEncode_length hlen (fun x hx => drawAnswer_length hx) h
    omega
  | oaepDec =>
    refine .inr (completeString_end (.inl rfl) (fun xs h => ?_) (fun e h => oaepDecode_not_defect h))
    have := oaepDecode_length hlen h
    omega
  | encrypt =>
    refine .inr (completeString_end (afterDraw_cases s) (fun xs h => ?_) (fun e h => rsaEncrypt_not_defect h))
    have := rsaEncrypt_length h
    omega
  | decrypt =>
    refine .inr (completeString_end (.inl rfl) (fun xs h => ?_) (fun e h => rsaDecrypt_not_defect h))
    have := rsaDecrypt_length hlen h
    omega

/-! ### The host port -/

theorem windowOfPage_some {p : Nat} {w : Window} (h : windowOfPage p = some w) : p * 0x1000 = windowBase w := by
  unfold windowOfPage at h
  split at h <;> cases h <;> rfl

/-- Everything a host write can do (20_memory R63): refused without change, or one of the changes the map allows; operands only while
IDLE (R66, R67), and never a read-only window (R69). -/
theorem hostWrite_cases (s : State) (a n : Nat) (v : Word) :
    hostWrite s a n v = (.err, s) ∨
    ∃ t, hostWrite s a n v = (.okay, t) ∧
      (t = resetBlock s ∨ t = { s with ie := v.getLsbD 0 } ∨ t = clearDone s ∨ t = s ∨
        s.seq = .idle ∧
          (t = issue s v ∨ (∃ x, t = { s with alen := x }) ∨ (t = { s with mlen := v } ∧ v.toNat ≤ s.cfg.bmax) ∨
            (t = { s with llen := v } ∧ v.toNat ≤ s.cfg.lmax) ∨
            ∃ w, w ≠ .ywin ∧ w ≠ .obuf ∧ windowBase w ≤ a ∧ a + n ≤ windowBase w + windowCap s.cfg w ∧
              t = { s with mem := Memory.writeBytes s.mem a (octetsOf v.toNat n) })) := by
  have idle : ¬ s.seq = .busy → s.seq = .idle := fun h => by cases hs : s.seq <;> simp_all
  unfold hostWrite
  split
  · exact .inl rfl
  · split
    · split
      · exact .inl rfl
      · have hctl : writeControl s a v = none ∨ ∃ r, writeControl s a v = some (.err, s) ∨
            (writeControl s a v = some (.okay, r) ∧ (r = resetBlock s ∨ r = { s with ie := v.getLsbD 0 } ∨
              r = clearDone s ∨ r = s ∨ s.seq = .idle ∧ r = issue s v)) := by
          unfold writeControl
          split
          · split
            · exact .inr ⟨_, .inr ⟨rfl, .inl rfl⟩⟩
            · exact .inr ⟨_, .inr ⟨rfl, .inr (.inl rfl)⟩⟩
          · split
            · exact .inr ⟨_, .inr ⟨rfl, .inr (.inr (.inl rfl))⟩⟩
            · exact .inr ⟨_, .inr ⟨rfl, .inr (.inr (.inr (.inl rfl)))⟩⟩
          · split
            · exact .inr ⟨s, .inl rfl⟩
            · next h => exact .inr ⟨_, .inr ⟨rfl, .inr (.inr (.inr (.inr ⟨idle h, rfl⟩)))⟩⟩
          · exact .inl rfl
        rcases hctl with h | ⟨r, h | ⟨h, h'⟩⟩
        · simp only [h]
          split
          · exact .inl rfl
          · next hlo =>
            have idle' : a ≥ 32 → s.seq = .idle := fun h32 => idle (fun hb => hlo ⟨h32, hb⟩)
            unfold writeOperand
            split
            · exact .inr ⟨_, rfl, .inr (.inr (.inr (.inr ⟨idle' (by omega), .inr (.inl ⟨_, rfl⟩)⟩)))⟩
            · exact .inr ⟨_, rfl, .inr (.inr (.inr (.inr ⟨idle' (by omega), .inr (.inl ⟨_, rfl⟩)⟩)))⟩
            · split
              · exact .inl rfl
              · exact .inr ⟨_, rfl, .inr (.inr (.inr (.inr ⟨idle' (by omega), .inr (.inr (.inl ⟨rfl, by omega⟩))⟩)))⟩
            · split
              · exact .inl rfl
              · exact .inr ⟨_, rfl, .inr (.inr (.inr (.inr ⟨idle' (by omega), .inr (.inr (.inr (.inl ⟨rfl, by omega⟩)))⟩)))⟩
            · exact .inl rfl
        · rw [h]
          exact .inl rfl
        · rw [h]
          refine .inr ⟨r, rfl, ?_⟩
          rcases h' with h' | h' | h' | h' | ⟨hi, h'⟩
          · exact .inl h'
          · exact .inr (.inl h')
          · exact .inr (.inr (.inl h'))
          · exact .inr (.inr (.inr (.inl h')))
          · exact .inr (.inr (.inr (.inr ⟨hi, .inl h'⟩)))
    · unfold writeWindow
      split
      · exact .inl rfl
      · next w hw =>
        have hbase := windowOfPage_some hw
        split
        · exact .inl rfl
        · next hb =>
          split
          · exact .inl rfl
          · next hcap =>
            split
            · exact .inl rfl
            · next hro =>
              simp only [not_or] at hro
              exact .inr ⟨_, rfl, .inr (.inr (.inr (.inr ⟨idle hb, .inr (.inr (.inr (.inr
                ⟨w, hro.1, hro.2, by omega, by omega, rfl⟩)))⟩)))⟩

/-! ### The step -/

/-- The cases of a step (44_control R180): the core's move with nothing on the agenda, or the agenda's first event. -/
theorem step_cases (s : State) :
    (s.env.agenda = [] ∧ step s = coreMove s) ∨
    ∃ e es, s.env.agenda = e :: es ∧ step s = eventStep (dropEvent s) e := by
  unfold step nextStep
  cases h : s.env.agenda with
  | nil => exact .inl ⟨rfl, rfl⟩
  | cons e es => exact .inr ⟨e, es, rfl, rfl⟩

/-- The core's move: nothing while IDLE; COMPLETE of the decoded command, or of an illegal word, while BUSY. -/
theorem coreMove_cases (s : State) :
    (s.seq = .idle ∧ coreMove s = .next s) ∨
    (s.seq = .busy ∧ decode s.cmdr = none ∧ coreMove s = .next (completeIllegal s)) ∨
    ∃ i, s.seq = .busy ∧ decode s.cmdr = some i ∧ coreMove s = exec i s := by
  unfold coreMove complete
  cases hs : s.seq with
  | idle => exact .inl ⟨rfl, rfl⟩
  | busy =>
    cases hd : decode s.cmdr with
    | none => exact .inr (.inl ⟨rfl, rfl, rfl⟩)
    | some i => exact .inr (.inr ⟨i, rfl, rfl, rfl⟩)

end Sys2Proof.Machine
end

