-- ==== Sys2Proof/Laws/Fields.lean ====
section
/-! SUPPORT. The fields of a command word and of STATUS, as numbers. -/

namespace Sys2Proof

/-- The two fields of a command word (30_encoding R90) as arithmetic on the word. -/
theorem wordFields_toNat (w : Word) : (rsvField w = 0#24 ↔ w.toNat / 256 = 0) ∧ (opcField w).toNat = w.toNat % 256 := by
  have := w.isLt
  constructor
  · rw [← BitVec.toNat_inj]
    simp only [rsvField, BitVec.extractLsb'_toNat, Nat.shiftRight_eq_div_pow, BitVec.toNat_ofNat]
    omega
  · simp [opcField, BitVec.extractLsb'_toNat]

/-- An opcode that selects a command is that command's opcode (30_encoding R92). -/
theorem decodeOpc_some {o : Byte} {i : Instr} (h : decodeOpc o = some i) : o = opcodeOf i := by
  have key : ∀ n : Fin 256,
      (match decodeOpc (BitVec.ofFin n) with
        | none => true
        | some j => decide (BitVec.ofFin n = opcodeOf j)) = true := by decide +kernel
  simpa [h] using key o.toFin

namespace Machine

/-- Putting `y` below `x` in a wider word adds it (the shape of every register word of 10_state). -/
theorem shiftLeft_or_eq {x y k : Nat} (h : y < 2 ^ k) : x <<< k ||| y = x * 2 ^ k + y := by
  rw [Nat.shiftLeft_eq, Nat.mul_comm, Nat.two_pow_add_eq_or_of_lt h]

/-- STATUS as a number (10_state R40), from its fields as they stand in the word. -/
theorem statusFields_toNat (o : Byte) (e : BitVec 4) (a b c : Bool) :
    (0#8 ++ o ++ 0#4 ++ e ++ 0#5 ++ BitVec.ofBool a ++ BitVec.ofBool b ++ BitVec.ofBool c).toNat =
      c.toNat + b.toNat * 2 + a.toNat * 4 + e.toNat * 2 ^ 8 + o.toNat * 2 ^ 16 := by
  have h1 := o.isLt
  have h2 := e.isLt
  have hb : ∀ x : Bool, x.toNat < 2 ^ 1 := by decide
  simp only [BitVec.toNat_append, BitVec.toNat_ofNat, BitVec.toNat_ofBool]
  rw [shiftLeft_or_eq (hb c), shiftLeft_or_eq (hb b), shiftLeft_or_eq (hb a), shiftLeft_or_eq (k := 5) (by omega),
    shiftLeft_or_eq (k := 4) h2, shiftLeft_or_eq (k := 4) (by omega), shiftLeft_or_eq (k := 8) h1]
  omega

end Machine

end Sys2Proof
end

