-- ==== Sys2Proof/WellFormed.lean ====
section
/-! DEFINITION. What the spec asks of the things a step is given. A command carries no field (30_encoding R90), so every term of
Instr is well-formed; the checks that can fail are those of the command WORD (R90, R91), of the parameters (00_scope R7,
`Config.Valid`), of a host transaction (20_memory R64) and of an answer of the randomness port (10_state R45). -/

namespace Sys2Proof

/-- A command has no operand field to check (30_encoding R90, R93). -/
def Instr.wf : Instr → Bool
  | .nop | .i2osp | .os2ip | .mgf1 | .rsaep | .rsadp | .rsasp1 | .rsavp1 | .oaepEnc | .oaepDec | .encrypt | .decrypt => true

/-- `RSV` must be zero (30_encoding R90). -/
def wordRsvOk (w : Word) : Bool := decide (w.toNat < 256)

/-- `OPC` must be one of the twelve of 30_encoding R92. -/
def wordOpcOk (w : Word) : Bool :=
  decide (w.toNat % 256 ∈ [0x00, 0x01, 0x02, 0x03, 0x10, 0x11, 0x12, 0x13, 0x20, 0x21, 0x30, 0x31])

/-- The words 30_encoding R95 does not call illegal. -/
def wordWf (w : Word) : Bool := wordRsvOk w && wordOpcOk w

/-- Sizes and alignment a host transaction must have anywhere in the map (20_memory R64), and an address inside the 64 KiB space
(10_state R49). -/
def transactionWf (addr size : Nat) : Bool :=
  decide ((size = 1 ∨ size = 4) ∧ addr % size = 0 ∧ addr ≤ 0xFFFF)

/-- An answer of the randomness port is `HLEN` octets, or none at all (10_state R45). -/
def drawWf (c : Config) (d : Option Octets) : Bool :=
  match d with
  | none => true
  | some s => decide (s.length = c.hlen)

end Sys2Proof
end

