-- ==== Sys2Proof/Laws/PerInstr.lean ====
section
/-! SUPPORT. The family of statements made per command: what holds of every command as a term, one lemma per constructor. -/

namespace Sys2Proof.Laws.Codec

/-- A command is well-formed, its word is well-formed (30_encoding R90, R91), and the word decodes to it. -/
def Statement (i : Instr) : Prop := i.wf = true ∧ wordWf (encode i) = true ∧ decode (encode i) = some i

theorem nop : Statement .nop := ⟨rfl, rfl, rfl⟩
theorem i2osp : Statement .i2osp := ⟨rfl, rfl, rfl⟩
theorem os2ip : Statement .os2ip := ⟨rfl, rfl, rfl⟩
theorem mgf1 : Statement .mgf1 := ⟨rfl, rfl, rfl⟩
theorem rsaep : Statement .rsaep := ⟨rfl, rfl, rfl⟩
theorem rsadp : Statement .rsadp := ⟨rfl, rfl, rfl⟩
theorem rsasp1 : Statement .rsasp1 := ⟨rfl, rfl, rfl⟩
theorem rsavp1 : Statement .rsavp1 := ⟨rfl, rfl, rfl⟩
theorem oaepEnc : Statement .oaepEnc := ⟨rfl, rfl, rfl⟩
theorem oaepDec : Statement .oaepDec := ⟨rfl, rfl, rfl⟩
theorem encrypt : Statement .encrypt := ⟨rfl, rfl, rfl⟩
theorem decrypt : Statement .decrypt := ⟨rfl, rfl, rfl⟩

end Sys2Proof.Laws.Codec
end

