-- ==== Sys2Proof/Laws/Reduction.lean ====
section
/-! SUPPORT. The corrective subtraction and the negative inverse of 43_rsa R154. -/

namespace Sys2Proof.Machine

/-- A corrective subtraction keeps the residue. -/
theorem subOnce_mod (n r : Nat) : subOnce n r % n = r % n := by
  unfold subOnce
  split
  · next h => exact (Nat.mod_eq_sub_mod h).symm
  · rfl

/-- A corrective subtraction takes a value below twice the modulus below it. -/
theorem subOnce_lt {n r : Nat} (h : r < 2 * n) : subOnce n r < n := by
  unfold subOnce
  split <;> omega

/-- `n' * n` is `-1` modulo `2^w`, for odd `n` (43_rsa R154). -/
theorem negInv_spec {n : Nat} (hn : n % 2 = 1) (w : Nat) : (negInv n w * n + 1) % 2 ^ w = 0 := by
  induction w with
  | zero => simp [Nat.mod_one]
  | succ w ih =>
    unfold negInv
    simp only
    split
    · assumption
    · next h =>
      obtain ⟨k, hk⟩ := Nat.dvd_of_mod_eq_zero ih
      rw [pow_succ] at *
      have hk2 : k % 2 = 1 := by
        rcases Nat.mod_two_eq_zero_or_one k with h0 | h0
        · refine absurd (Nat.mod_eq_zero_of_dvd ⟨k / 2, ?_⟩) h
          rw [hk, mul_assoc, show 2 * (k / 2) = k by omega]
        · exact h0
      refine Nat.mod_eq_zero_of_dvd ⟨(k + n) / 2, ?_⟩
      rw [add_mul, add_right_comm, hk, mul_assoc, show 2 * ((k + n) / 2) = k + n by omega, mul_add]

end Sys2Proof.Machine
end

