-- ==== Sys2Proof/Tests/Slice0.lean ====
section
/-! SUPPORT. Tests. Every expected value is transcribed from 95_test_vectors or from the rule named with the test. CFG-T is the toy
configuration of 95 section 1.2; KEY-3233 and KEY-T are the keys of section 1.3. -/

namespace Sys2Proof.Tests

open Sys2Proof.Machine

-- one proof at a time: the kernel evaluations below would otherwise run side by side
set_option Elab.async false

/-! ### Helpers -/

/-- Octets from numbers. -/
def oct (xs : List Nat) : Octets := xs.map (BitVec.ofNat 8)

/-- Cells of one window, from its start. -/
def load (m : List Host.Cell) (w : Window) (xs : Octets) : List Host.Cell := Memory.writeBytes m (windowBase w) xs

/-- A CFG-T state with a key, an integer operand, a message and a label. -/
def loaded (n e d x : Nat) (m l : Octets) : State :=
  { State.reset with
    cfg := Config.toy
    mem := load (load (load (load (load (load [] .nwin (octetsOf n 16)) .ewin (octetsOf e 16)) .dwin (octetsOf d 16)) .xwin
      (octetsOf x 16)) .mbuf m) .lbuf l
    mlen := BitVec.ofNat 32 m.length
    llen := BitVec.ofNat 32 l.length }

/-- KEY-3233 with integer operand `x`. -/
def key3233 (x : Nat) : State := loaded 3233 17 413 x [] []

/-- The modulus of KEY-T. -/
def keyTn : Nat := 0x9C000000002EF000000000A5

/-- KEY-T with a message and a label. -/
def keyT (m l : Octets) : State := loaded keyTn 65537 0x0FAB5A54A5AFE91826E7D923 0 m l

/-- The same state with the randomness port about to answer `d`. -/
def withDraw (s : State) (d : Option Octets) : State := { s with env := { s.env with draws := [d] } }

/-- The same state with this on the agenda. -/
def withAgenda (s : State) (es : List Event) : State := { s with env := { s.env with agenda := es } }

/-- The next state, if the outcome is one. -/
def next? : Host.Outcome State Fault Refusal → Option State
  | .next t => some t
  | _ => none

/-- ISSUE of a command word and its COMPLETE: the second step's state. -/
def completed (s : State) (w : Word) : Option State := next? (step (issue s w))

/-- What the host reads at `a` after ISSUE and COMPLETE of `w`. -/
def readAfter (s : State) (w : Word) (a n : Nat) : Option (Resp × Word) := (completed s w).map (fun t => hostRead t a n)

/-- OBUF[0..OLEN) after ISSUE and COMPLETE of `w`. -/
def obufAfter (s : State) (w : Word) : Option Octets := (completed s w).map obufString

/-- int(YWIN) after ISSUE and COMPLETE of `w`. -/
def ywinAfter (s : State) (w : Word) : Option Nat := (completed s w).map (fun t => intOf t .ywin)

/-- STATUS after ISSUE and COMPLETE of `w`. -/
def statusAfter (s : State) (w : Word) : Option Word := (completed s w).map statusWord

/-! ### WellFormed: each check refuses an ill-formed term -/

theorem test_wf_every_command :
    ∀ i ∈ [Instr.nop, .i2osp, .os2ip, .mgf1, .rsaep, .rsadp, .rsasp1, .rsavp1, .oaepEnc, .oaepDec, .encrypt, .decrypt],
      i.wf = true := by decide
theorem test_wf_reserved_bits_set : wordRsvOk 0x00000110#32 = false ∧ wordWf 0x00000110#32 = false := by decide
theorem test_wf_top_reserved_bit_set : wordWf 0x80000010#32 = false := by decide
theorem test_wf_unknown_opcode : wordOpcOk 0x00000004#32 = false ∧ wordWf 0x00000004#32 = false := by decide
theorem test_wf_good_word : wordWf 0x00000031#32 = true := by decide
theorem test_wf_size_two : transactionWf 0x1000 2 = false := by decide
theorem test_wf_misaligned : transactionWf 0x1002 4 = false := by decide
theorem test_wf_beyond_space : transactionWf 0x10000 1 = false := by decide
theorem test_wf_last_octet : transactionWf 0xFFFF 1 = true := by decide
theorem test_wf_draw_of_wrong_length : drawWf Config.toy (some (oct [1])) = false := by decide
theorem test_wf_draw_of_right_length : drawWf Config.toy (some (oct [1, 2])) = true := by decide
theorem test_wf_default_config : Config.default.Valid ∧ Config.toy.Valid := by decide
theorem test_wf_kmax_unaligned : ¬{ Config.toy with kmax := 14 }.Valid := by decide
theorem test_wf_kmax_too_large : ¬{ Config.default with kmax := 4100, bmax := 4100 }.Valid := by decide
theorem test_wf_kmax_zero : ¬{ Config.toy with kmax := 0 }.Valid := by decide
theorem test_wf_bmax_below_kmax : ¬{ Config.toy with bmax := 12 }.Valid := by decide
theorem test_wf_bmax_unaligned : ¬{ Config.toy with bmax := 18 }.Valid := by decide
theorem test_wf_bmax_too_large : ¬{ Config.toy with bmax := 4100 }.Valid := by decide
theorem test_wf_lmax_unaligned : ¬{ Config.toy with lmax := 6 }.Valid := by decide
theorem test_wf_lmax_too_large : ¬{ Config.toy with lmax := 4100 }.Valid := by decide
theorem test_wf_hlen_zero : ¬{ Config.toy with hlen := 0, hash := .free 0 }.Valid := by decide
theorem test_wf_hlen_too_large : ¬{ Config.toy with hlen := 256, hash := .free 0 }.Valid := by decide
theorem test_wf_hlen_not_of_the_hash : ¬{ Config.default with hlen := 2 }.Valid := by decide

/-! ### Decoding: words written out from 30_encoding R92 -/

theorem test_decode_nop : decode 0b00000000000000000000000000000000#32 = some .nop := by decide
theorem test_decode_i2osp : decode 0b00000000000000000000000000000001#32 = some .i2osp := by decide
theorem test_decode_os2ip : decode 0b00000000000000000000000000000010#32 = some .os2ip := by decide
theorem test_decode_mgf1 : decode 0b00000000000000000000000000000011#32 = some .mgf1 := by decide
theorem test_decode_rsaep : decode 0b00000000000000000000000000010000#32 = some .rsaep := by decide
theorem test_decode_rsadp : decode 0b00000000000000000000000000010001#32 = some .rsadp := by decide
theorem test_decode_rsasp1 : decode 0b00000000000000000000000000010010#32 = some .rsasp1 := by decide
theorem test_decode_rsavp1 : decode 0b00000000000000000000000000010011#32 = some .rsavp1 := by decide
theorem test_decode_oaepEnc : decode 0b00000000000000000000000000100000#32 = some .oaepEnc := by decide
theorem test_decode_oaepDec : decode 0b00000000000000000000000000100001#32 = some .oaepDec := by decide
theorem test_decode_encrypt : decode 0b00000000000000000000000000110000#32 = some .encrypt := by decide
theorem test_decode_decrypt : decode 0b00000000000000000000000000110001#32 = some .decrypt := by decide
/-- 30_encoding R95, the boundaries of the reserved ranges. -/
theorem test_decode_reserved_opcodes :
    [0x04#32, 0x0F#32, 0x14#32, 0x1F#32, 0x22#32, 0x2F#32, 0x32#32, 0xFF#32].all (fun w => (decode w).isNone) = true := by
  decide +kernel
theorem test_decode_reserved_bits :
    [0x00000100#32, 0x00000131#32, 0x80000000#32, 0x01000010#32].all (fun w => (decode w).isNone) = true := by
  decide +kernel
theorem test_decode_table_word : decodeTableWord 32 0x21 = some .oaepDec ∧ decodeTableWord 8 0x21 = some .oaepDec := by
  decide +kernel
theorem test_decode_table_word_too_long : decodeTableWord 32 (2 ^ 32 + 0x21) = none := by decide +kernel

/-! ### The commands -/

/-- 95 section 3.6: NOP from reset. -/
theorem test_nop_status : statusAfter State.reset 0x00#32 = some 0x00000002#32 := by decide +kernel
/-- 44_control R186: NOP keeps the outputs. -/
theorem test_nop_keeps_obuf :
    obufAfter { key3233 0 with mem := [(0x8000, 0x55#8)], olen := 1#32 } 0x00#32 = some (oct [0x55]) := by decide +kernel

/-- 95 section 3.1: I2OSP of 3233 in 3 octets. -/
theorem test_i2osp_three_octets :
    obufAfter { key3233 3233 with alen := 3#64 } 0x01#32 = some (oct [0x00, 0x0C, 0xA1]) := by decide +kernel
/-- 95 section 3.1: in 1 octet it does not fit. -/
theorem test_i2osp_too_large : statusAfter { key3233 3233 with alen := 1#64 } 0x01#32 = some 0x00010206#32 := by decide +kernel

/-- 95 section 3.1: OS2IP of `0C A1`. -/
theorem test_os2ip_value : ywinAfter (loaded 0 0 0 0 (oct [0x0C, 0xA1]) []) 0x02#32 = some 3233 := by decide +kernel
/-- 95 section 3.1: its STATUS. -/
theorem test_os2ip_status : statusAfter (loaded 0 0 0 0 (oct [0x0C, 0xA1]) []) 0x02#32 = some 0x00020002#32 := by decide +kernel

/-- 95 section 3.2, V-MGF-T, maskLen 5: one octet over a multiple of hLen. -/
theorem test_mgf1_toy :
    obufAfter { loaded 0 0 0 0 (oct [0xA5, 0x5A]) [] with alen := 5#64 } 0x03#32 =
      some (oct [0x28, 0x42, 0x28, 0x43, 0x28]) := by decide +kernel
/-- 95 section 3.2, bounds: `2^37 + 1` and `2^37` in CFG-D. -/
theorem test_mgf1_bounds :
    statusAfter { State.reset with alen := 0x2000000001#64 } 0x03#32 = some 0x00030606#32 ∧
    statusAfter { State.reset with alen := 0x2000000000#64 } 0x03#32 = some 0x00030806#32 := by decide +kernel

/-- 95 P1, line 13. -/
theorem test_rsaep_value : ywinAfter (key3233 42) 0x10#32 = some 2557 := by decide +kernel
/-- 95 P1, line 31: `X = N`. -/
theorem test_rsaep_out_of_range : statusAfter (key3233 3233) 0x10#32 = some 0x00100306#32 := by decide +kernel
/-- 95 P1, line 19. -/
theorem test_rsadp_value : ywinAfter (key3233 2557) 0x11#32 = some 42 := by decide +kernel
/-- 43_rsa R154, 95 section 3.4: `N = 0` rejects everything. -/
theorem test_rsadp_zero_modulus : statusAfter (loaded 0 17 413 0 [] []) 0x11#32 = some 0x00110306#32 := by decide +kernel
/-- 95 P1, line 23. -/
theorem test_rsasp1_value : ywinAfter (key3233 84) 0x12#32 = some 2046 := by decide +kernel
/-- 95 section 3.4: `0^0 = 1`. -/
theorem test_rsasp1_zero_exponent : ywinAfter (loaded 3233 17 0 0 [] []) 0x12#32 = some 1 := by decide +kernel
/-- 95 P1, line 27. -/
theorem test_rsavp1_value : ywinAfter (key3233 2046) 0x13#32 = some 84 := by decide +kernel
/-- 95 section 3.4: an even modulus. -/
theorem test_rsavp1_even_modulus : ywinAfter (loaded 8 3 0 5 [] []) 0x13#32 = some 5 := by decide +kernel

/-- 95 section 3.3, V-OAEP-1. -/
theorem test_oaepEnc_value :
    obufAfter (withDraw (keyT (oct [0x68, 0x69]) []) (some (oct [0xA5, 0x5A]))) 0x20#32 =
      some (oct [0x00, 0x67, 0x34, 0x83, 0x8F, 0x28, 0x43, 0x28, 0x44, 0x29, 0x2D, 0x41]) := by decide +kernel
/-- 95 section 3.3, V-OAEP-4 and V-OAEP-5: seven octets, and six octets with no seed. -/
theorem test_oaepEnc_errors :
    statusAfter (withDraw (keyT (oct [1, 2, 3, 4, 5, 6, 7]) []) (some (oct [0xA5, 0x5A]))) 0x20#32 = some 0x00200106#32 ∧
    statusAfter (withDraw (keyT (oct [1, 2, 3, 4, 5, 6]) []) none) 0x20#32 = some 0x00200506#32 := by decide +kernel

/-- 95 section 3.3, V-OAEP-D: the message contains `01` and `00`. -/
theorem test_oaepDec_value :
    obufAfter (keyT (oct [0x00, 0x22, 0x37, 0xEC, 0x02, 0x47, 0xD1, 0x46, 0xD1, 0x46, 0xD3, 0x47]) []) 0x21#32 =
      some (oct [0x01, 0x00, 0x01, 0x01, 0x00]) := by decide +kernel
/-- 95 section 3.3, V-OAEP-D: an octet of PS that is not zero before a `01`. -/
theorem test_oaepDec_strict_separator :
    statusAfter (keyT (oct [0x00, 0x8F, 0x37, 0xEC, 0x02, 0x47, 0xD2, 0x47, 0xD1, 0x46, 0xBA, 0x2E]) []) 0x21#32 =
      some 0x00210406#32 := by decide +kernel

/-- 95 section 3.5, V-ENC-1 (P2, lines 18 to 20). -/
theorem test_encrypt_value :
    obufAfter (withDraw (keyT (oct [0x68, 0x69]) []) (some (oct [0xA5, 0x5A]))) 0x30#32 =
      some (oct [0x90, 0xEE, 0xBF, 0x35, 0xDF, 0x44, 0x11, 0xE7, 0xD0, 0xAC, 0xDF, 0x98]) := by decide +kernel
/-- 95 section 3.5, V-ENC-2: the longest message, with a label. -/
theorem test_encrypt_longest :
    obufAfter (withDraw (keyT (oct [0x01, 0x00, 0x01, 0x02, 0x03, 0xFF]) (oct [0x4C, 0x31])) (some (oct [0x00, 0x01])))
      0x30#32 = some (oct [0x59, 0x35, 0xD7, 0xD4, 0x32, 0x42, 0x06, 0x09, 0x90, 0x5B, 0xF2, 0x7F]) := by decide +kernel

/-- 95 section 3.5, V-DEC-1. -/
theorem test_decrypt_value :
    obufAfter (keyT (oct [0x90, 0xEE, 0xBF, 0x35, 0xDF, 0x44, 0x11, 0xE7, 0xD0, 0xAC, 0xDF, 0x98]) []) 0x31#32 =
      some (oct [0x68, 0x69]) := by decide +kernel
/-- 95 section 3.5, V-DEC-E: `C = N` is code 3, `C = N - 1` is code 4. -/
theorem test_decrypt_range :
    statusAfter (keyT (octetsOf keyTn 12) []) 0x31#32 = some 0x00310306#32 ∧
    statusAfter (keyT (octetsOf (keyTn - 1) 12) []) 0x31#32 = some 0x00310406#32 := by decide +kernel

/-- 95 section 3.6: the two illegal words. -/
theorem test_illegal_words :
    statusAfter State.reset 0x00000004#32 = some 0x00040706#32 ∧
    statusAfter State.reset 0x00000110#32 = some 0x00100706#32 := by decide +kernel
/-- 95 section 3.6: OAEP_ENC from reset, where `K = 0`, placed as the host's check places it. -/
theorem test_fetch_word_from_reset :
    (next? (step (State.reset.withFetchWord 32 0x20))).map statusWord = some 0x00200106#32 ∧
    (next? (step (State.reset.withFetchWord 32 0x01))).map statusWord = some 0x00010002#32 := by decide +kernel

/-! ### The hash and the mask (95 sections 1.1, 3.2) -/

theorem test_toy16 : hash Config.toy (oct [0x68, 0x69]) = oct [0xF9, 0xAE] ∧ hash Config.toy [] = oct [0xAB, 0xCD] := by decide
/-- 95 section 3.5, V-ENC-S1: `lHash` of the empty label, SHA-256 (93 G1). -/
theorem test_sha256_empty :
    sha256Value [] = 0xE3B0C44298FC1C149AFBF4C8996FB92427AE41E4649B934CA495991B7852B855 := by decide +kernel
/-- 95 section 3.2, V-MGF-S: "foo", 5 octets. -/
theorem test_mgf_sha256_foo :
    (mgf Config.default (oct [0x66, 0x6F, 0x6F]) 5).toOption = some (oct [0x3B, 0xDA, 0xBA, 0x83, 0xCF]) := by decide +kernel

/-- 43_rsa R154 on 95 section 3.4's moduli: an even one for Barrett, KEY-3233's for Montgomery. -/
theorem test_reductions :
    barrett 8 63 = 7 ∧ barrett 3233 (3232 * 3232) = 1 ∧ montMul 3233 12 (montMul 3233 12 42 (2 ^ 24 % 3233)) 1 = 42 := by
  decide +kernel

/-! ### The host port (95 section 3.6) -/

theorem test_read_id : hostRead State.reset 0x0000 4 = (.okay, 0x504B4331#32) := by decide +kernel
theorem test_read_caps :
    hostRead State.reset 0x0004 4 = (.okay, 0x02000200#32) ∧ hostRead State.reset 0x0008 4 = (.okay, 0x00200200#32) := by
  decide +kernel
theorem test_mlen_over_capacity :
    (hostWrite State.reset 0x0028 4 513#32).1 = .err ∧ (hostWrite State.reset 0x0028 4 512#32).1 = .okay := by decide +kernel
theorem test_refused_writes :
    (hostWrite State.reset 0x0028 1 1#32).1 = .err ∧ (hostWrite State.reset 0x1002 4 1#32).1 = .err ∧
    (hostWrite State.reset 0x0030 4 1#32).1 = .err ∧ (hostWrite State.reset 0x0000 4 1#32).1 = .err ∧
    (hostWrite State.reset 0x8000 1 1#32).1 = .err ∧ (hostWrite State.reset 0x1200 1 1#32).1 = .err ∧
    (hostWrite State.reset 0x9000 4 0#32).1 = .err ∧ hostRead State.reset 0x0018 4 = (.err, 0#32) := by decide +kernel
theorem test_dwin_reads_zero : hostRead (hostWrite State.reset 0x3000 1 0x55#32).2 0x3000 1 = (.okay, 0#32) := by decide +kernel
theorem test_lanes :
    let t := (hostWrite State.reset 0x4000 4 0x0CA10000#32).2
    hostRead t 0x4000 1 = (.okay, 0x0C#32) ∧ hostRead t 0x4001 1 = (.okay, 0xA1#32) ∧ hostRead t 0x4002 1 = (.okay, 0#32) := by
  decide +kernel
/-- 44_control R189: a 1-octet write stores the low octet; 10_state R25: it reaches the number in DWIN. -/
theorem test_one_octet_write_of_dwin :
    intOf (hostWrite (key3233 0) 0x300E 1 0xFF02#32).2 .dwin = 0x029D := by decide +kernel
/-- 20_memory R63, lines 0x0024 and 0x0020: the high half first, then the low half. -/
theorem test_alen_high_half_first :
    (hostWrite (hostWrite State.reset 0x0024 4 0x20#32).2 0x0020 4 1#32).2.alen = 0x2000000001#64 := by decide +kernel
/-- 95 P2, line 9. -/
theorem test_read_k : hostRead (keyT [] []) 0x0034 4 = (.okay, 12#32) := by decide +kernel
/-- 95 P3, lines 4 to 9. -/
theorem test_busy_lockout :
    let t := issue State.reset 0#32
    statusWord t = 1#32 ∧ (hostWrite t 0x6000 1 0xAA#32).1 = .err ∧ hostRead t 0x6000 1 = (.err, 0#32) ∧
    hostRead t 0x0028 4 = (.err, 0#32) ∧ (hostWrite t 0x0014 4 1#32).1 = .err ∧ hostRead t 0x0014 4 = (.okay, 0#32) := by
  decide +kernel
/-- 95 P3, lines 13 to 15: DONE, irq, ACK. -/
theorem test_interrupt_and_acknowledge :
    (completed { State.reset with ie := true } 0#32).map irq = some true ∧
    (completed { State.reset with ie := true } 0#32).map (fun t => irq (hostWrite t 0x0010 4 2#32).2) = some false := by
  decide +kernel
/-- 95 P3, lines 20 to 23: soft reset of a BUSY block. -/
theorem test_soft_reset :
    let t := (hostWrite (issue { State.reset with ie := true, mem := [(0x6000, 0xAA#8)] } 0x31#32) 0x000C 4 2#32).2
    statusWord t = 0#32 ∧ hostRead t 0x6000 1 = (.okay, 0#32) ∧ hostRead t 0x000C 4 = (.okay, 0#32) := by decide +kernel
/-- 95 P2, lines 7 and 18: each agent's step in turn: the host reads, the core completes, the host reads. -/
theorem test_agenda_order :
    (next? (step (withAgenda (issue (key3233 42) 0x10#32) [.hostRead 0x0010 4, .coreTurn]))).map
      (fun t => (t.env.answers, t.env.agenda, t.seq)) = some ([.read .okay 0x00100001#32], [.coreTurn], .busy) := by
  decide +kernel

/-! ### Witnesses: states and operands that meet the hypotheses of the statements

`witness_X` meets the hypotheses of `Obligations.X`, each clause with its own, at a boundary of its range where it has one. -/

/-- The eight windows. -/
def allWindows : List Window := [.nwin, .ewin, .dwin, .xwin, .ywin, .mbuf, .lbuf, .obuf]

/-- The invariants as one computable check. -/
def invCheck (s : State) : Bool :=
  decide s.cfg.Valid && (decide (s.mlen.toNat ≤ s.cfg.bmax) && (decide (s.llen.toNat ≤ s.cfg.lmax) &&
  (decide (s.olen.toNat ≤ s.cfg.bmax) && ((List.range s.cfg.bmax).all (fun i =>
    decide (s.olen.toNat ≤ i → Memory.read s.mem (windowBase .obuf + i) = 0x00#8)) &&
  (decide (¬(s.seq = .busy ∧ s.done = true)) && (decide (s.errcode.toNat ≤ 8) &&
  (decide (s.seq = .busy → s.done = false ∧ s.errcode = 0#4) && (decide (s.seq = .idle → s.scratch = Scratch.zero) &&
  (decide (Memory.wf s.mem) && s.mem.all (fun c => allWindows.any (fun w => inWindow s.cfg w c.1)))))))))))

theorem inv_of_check {s : State} (h : invCheck s = true) : Inv s := by
  simp only [invCheck, Bool.and_eq_true, decide_eq_true_eq, List.all_eq_true, List.any_eq_true, List.mem_range] at h
  obtain ⟨h1, h2, h3, h4, h5, h6, h7, h8, h9, h10, h11⟩ := h
  exact
    { cfg_valid := h1, mlen_le := h2, llen_le := h3, olen_le := h4, obuf_tail := fun i hi hb => h5 i hb hi
      not_busy_done := h6, errcode_known := h7, busy_clean := h8, idle_scratch := h9, mem_wf := h10
      mem_mapped := fun c hc => (h11 c hc).imp fun _ hw => hw.2 }

/-- RSAEP of 42 under KEY-3233 in flight. -/
def busy42 : State := issue (key3233 42) 0x10#32

theorem witness_ResetIsAllZero :
    (∃ t, eventStep busy42 .hardReset = .next t) ∧
    (3#32).getLsbD 1 = true ∧ ∃ r t, hostWrite busy42 0x000C 4 3#32 = (r, t) := ⟨⟨_, rfl⟩, by decide, _, _, rfl⟩

theorem witness_SoftResetAnswersOkayAndWipes : (3#32).getLsbD 1 = true := by decide

theorem witness_DecodeIsTotalAndExact : decode 0x00000031#32 = some .decrypt := by decide

theorem witness_StepRunsDecodedCommand :
    (withAgenda busy42 [.hardReset]).env.agenda = .hardReset :: [] ∧ busy42.env.agenda = [] ∧
    (busy42.seq = .busy ∧ decode busy42.cmdr = some .rsaep) ∧
    ((issue (key3233 42) 0x110#32).seq = .busy ∧ decode (issue (key3233 42) 0x110#32).cmdr = none) ∧
    (key3233 42).seq = .idle ∧ (0x31 : Nat) < 2 ^ 32 ∧ decodeTableWord 32 0x31 = some .decrypt := by decide +kernel

theorem witness_IssueLatchesTheWord : (key3233 42).seq = .idle := by decide

theorem witness_IllegalWordCompletesWithCodeSeven :
    (key3233 42).seq = .idle ∧ decode 0x00000110#32 = none := by decide +kernel

theorem inv_withAgenda {s : State} (h : Inv s) (es : List Event) : Inv (withAgenda s es) :=
  { cfg_valid := h.cfg_valid, mlen_le := h.mlen_le, llen_le := h.llen_le, olen_le := h.olen_le, obuf_tail := h.obuf_tail
    not_busy_done := h.not_busy_done, errcode_known := h.errcode_known, busy_clean := h.busy_clean
    idle_scratch := h.idle_scratch, mem_wf := h.mem_wf, mem_mapped := h.mem_mapped }

theorem busy42_inv (es : List Event) : Inv (withAgenda busy42 es) := inv_withAgenda (inv_of_check (by decide +kernel)) es

/-- One event for each of the three outcomes: nothing, IE, a reset. -/
theorem witness_BusyBlockChangesOnlyByControl :
    Inv (withAgenda busy42 []) ∧ (withAgenda busy42 []).seq = .busy ∧
    (Event.hostRead 0x0010 4 ≠ .coreTurn ∧ ∃ t, eventStep (withAgenda busy42 []) (.hostRead 0x0010 4) = .next t) ∧
    (Event.hostWrite 0x000C 4 1#32 ≠ .coreTurn ∧
      ∃ t, eventStep (withAgenda busy42 []) (.hostWrite 0x000C 4 1#32) = .next t ∧ t.ie = true) ∧
    Event.hostWrite 0x000C 4 2#32 ≠ .coreTurn ∧
      ∃ t, eventStep (withAgenda busy42 []) (.hostWrite 0x000C 4 2#32) = .next t ∧ t.seq = .idle :=
  ⟨busy42_inv [], rfl, ⟨by decide, _, rfl⟩, ⟨by decide, _, rfl, by decide +kernel⟩, by decide, _, rfl, by decide +kernel⟩

theorem witness_EveryStepKeepsTheInvariants :
    ∃ t, Inv (withAgenda busy42 []) ∧ step (withAgenda busy42 []) = .next t ∧ intOf t .ywin = 2557 :=
  ⟨_, busy42_inv [], rfl, by decide +kernel⟩

theorem witness_OnlyHostAndResetWriteOperands :
    ∃ t, (withAgenda busy42 [.coreTurn]).cfg.Valid ∧ step (withAgenda busy42 [.coreTurn]) = .next t ∧
      (∀ es a n v, (withAgenda busy42 [.coreTurn]).env.agenda ≠ .hostWrite a n v :: es) ∧
      ∀ es, (withAgenda busy42 [.coreTurn]).env.agenda ≠ .hardReset :: es :=
  ⟨_, by decide, rfl, by simp [withAgenda], by simp [withAgenda]⟩

/-- The same state with another octet in DWIN. -/
def otherD (s : State) : State := { s with mem := Memory.write s.mem 0x3000 0x55#8 }

theorem sameButD_otherD {s : State} (h : s.cfg.kmax = 16) : SameButD s (otherD s) := by
  refine ⟨rfl, fun a ha => ?_⟩
  simp only [otherD, Memory.read_write]
  split
  · next h' => subst h'; simp [inWindow, windowBase, windowCap, h] at ha
  · rfl

/-- ENCRYPT in flight, which does not read D; and DECRYPT in flight with the host about to read STATUS. -/
theorem witness_SecretExponentInfluencesNothingElse :
    (∃ s' t', (issue (keyT (oct [1]) []) 0x30#32).cfg.Valid ∧
      SameButD (issue (keyT (oct [1]) []) 0x30#32) (otherD (issue (keyT (oct [1]) []) 0x30#32)) ∧
      ¬completesWithD (issue (keyT (oct [1]) []) 0x30#32) ∧ step (issue (keyT (oct [1]) []) 0x30#32) = .next s' ∧
      step (otherD (issue (keyT (oct [1]) []) 0x30#32)) = .next t') ∧
    ∃ s' t', (withAgenda (issue (keyT (oct [1]) []) 0x31#32) [.hostRead 0x0010 4]).cfg.Valid ∧
      SameButD (withAgenda (issue (keyT (oct [1]) []) 0x31#32) [.hostRead 0x0010 4])
        (otherD (withAgenda (issue (keyT (oct [1]) []) 0x31#32) [.hostRead 0x0010 4])) ∧
      ¬completesWithD (withAgenda (issue (keyT (oct [1]) []) 0x31#32) [.hostRead 0x0010 4]) ∧
      step (withAgenda (issue (keyT (oct [1]) []) 0x31#32) [.hostRead 0x0010 4]) = .next s' ∧
      step (otherD (withAgenda (issue (keyT (oct [1]) []) 0x31#32) [.hostRead 0x0010 4])) = .next t' :=
  ⟨⟨_, _, by decide, sameButD_otherD rfl,
      fun h => absurd h.2.2 (show ¬(decode 0x30#32 = some .rsadp ∨ decode 0x30#32 = some .rsasp1 ∨
        decode 0x30#32 = some .decrypt) by decide), rfl, rfl⟩,
    _, _, by decide, sameButD_otherD rfl, fun h => absurd h.2.1 (by simp [coreToMove, withAgenda]), rfl, rfl⟩

theorem witness_I2ospMatchesItsFormula :
    (256 : Nat) ≥ 256 ^ 1 ∧ (255 : Nat) < 256 ^ 1 ∧ (0 : Nat) < 256 ^ 0 ∧ (1 : Nat) ≥ 256 ^ 0 := by decide
theorem witness_CodecFunctionsAreInverse : (65535 : Nat) < 256 ^ 2 ∧ (0 : Nat) < 256 ^ 0 := by decide

theorem witness_MgfIsTheHashChain :
    Config.toy.Valid ∧ 2 ^ 33 + 1 > 2 ^ 32 * Config.toy.hlen ∧ 2 ^ 33 ≤ 2 ^ 32 * Config.toy.hlen ∧ 5 < 2 ^ 33 := by decide
theorem witness_ShorterMaskBeginsLongerMask :
    ∃ ta tb, Config.toy.Valid ∧ (3 : Nat) ≤ 5 ∧ mgf Config.toy (oct [0xA5, 0x5A]) 3 = .ok ta ∧
      mgf Config.toy (oct [0xA5, 0x5A]) 5 = .ok tb := ⟨_, _, by decide, by decide, rfl, rfl⟩

theorem witness_ModExpIsThePower : (1 : Nat) ≤ 1 ∧ (1 : Nat) ≤ 8 := by decide
theorem witness_ModExpAtZeroAndOne : (1 : Nat) ≤ 1 ∧ (2 : Nat) ≤ 2 := by decide
theorem witness_ReductionTechniquesAreExact :
    ((1 : Nat) ≤ 8 ∧ 63 < 8 * 8) ∧ 3233 % 2 = 1 ∧ (3233 : Nat) < 2 ^ 12 ∧ (3232 : Nat) < 3233 ∧ (2557 : Nat) < 3233 ∧
    (1 : Nat) < 3233 := by decide
theorem witness_PrimitiveRangeRule : (3233 : Nat) ≤ 3233 ∧ (3232 : Nat) < 3233 := by decide

/-- KEY-T for the clauses on success, KEY-3233 for a modulus too short, another 12-octet modulus, and two labels of one hash. -/
theorem witness_OaepEncodeConsequences :
    Config.toy.Valid ∧ byteLen keyTn ≤ Config.toy.kmax ∧
    (∀ seed, some (oct [0xA5, 0x5A]) = some seed → seed.length = Config.toy.hlen) ∧
    (byteLen 3233 ≤ Config.toy.kmax ∧ byteLen 3233 < 2 * Config.toy.hlen + 2) ∧
    ((oct [0x68, 0x69]).length + 2 * Config.toy.hlen + 2 ≤ byteLen keyTn ∧
      (oct [0xAB, 0xCD, 0, 0, 0, 0, 2, 0x68, 0x69]).length = byteLen keyTn - Config.toy.hlen - 1) ∧
    (∃ em, oaepEncode Config.toy keyTn (oct [0x68, 0x69]) [] (some (oct [0xA5, 0x5A])) = .ok em) ∧
    byteLen (keyTn + 2) = byteLen keyTn ∧
    (∃ e, oaepEncode Config.toy keyTn (oct [0x68, 0x69]) [] none = .error e) ∧
    hash Config.toy (oct [1, 0]) = hash Config.toy (oct [0, 31]) :=
  ⟨by decide, by decide +kernel, by rintro _ ⟨⟩; rfl, by decide +kernel, by decide +kernel, ⟨_, rfl⟩,
    by decide +kernel, ⟨_, rfl⟩, by decide +kernel⟩

theorem witness_OaepRoundTrip :
    Config.toy.Valid ∧ byteLen keyTn ≤ Config.toy.kmax ∧ (oct [0x00, 0x01]).length = Config.toy.hlen ∧
    (oct [0x01, 0x00, 0x01, 0x02, 0x03, 0xFF]).length + 2 * Config.toy.hlen + 2 ≤ byteLen keyTn := by decide +kernel

/-- V-OAEP-2 with the label `4C 31`; `4C 32` has another hash, `00 1F` and `01 00` share one. -/
theorem witness_LabelBinding :
    Config.toy.Valid ∧ byteLen keyTn ≤ Config.toy.kmax ∧ (oct [0x00, 0x01]).length = Config.toy.hlen ∧
    (∃ em, oaepEncode Config.toy keyTn (oct [1]) (oct [0x4C, 0x31]) (some (oct [0x00, 0x01])) = .ok em) ∧
    hash Config.toy (oct [0x4C, 0x31]) ≠ hash Config.toy (oct [0x4C, 0x32]) ∧
    (∃ em, oaepEncode Config.toy keyTn (oct [1]) (oct [0x00, 0x1F]) (some (oct [0x00, 0x01])) = .ok em) ∧
    hash Config.toy (oct [0x00, 0x1F]) = hash Config.toy (oct [0x01, 0x00]) :=
  ⟨by decide, by decide +kernel, rfl, ⟨_, rfl⟩, by decide +kernel, ⟨_, rfl⟩, by decide +kernel⟩

theorem witness_DecoderAcceptsExactlyPaddedBlocks :
    ∃ em, Config.toy.Valid ∧ byteLen keyTn ≤ Config.toy.kmax ∧ 2 * Config.toy.hlen + 2 ≤ byteLen keyTn ∧
      (oct [0x12, 0x34]).length = Config.toy.hlen ∧
      (oct [0xAB, 0xCD, 0, 0, 0, 0, 1, 0x68, 0x69]).length = byteLen keyTn - Config.toy.hlen - 1 ∧
      oaepMask Config.toy (byteLen keyTn) (oct [0x12, 0x34]) (oct [0xAB, 0xCD, 0, 0, 0, 0, 1, 0x68, 0x69]) = .ok em :=
  ⟨_, by decide, by decide +kernel, by decide +kernel, rfl, by decide +kernel, rfl⟩

theorem witness_DecoderRaisesOneError :
    Config.toy.Valid ∧ byteLen keyTn ≤ Config.toy.kmax ∧ (zeros 11).length ≠ byteLen keyTn ∧
    (byteLen 3233 ≤ Config.toy.kmax ∧ byteLen 3233 < 2 * Config.toy.hlen + 2) ∧
    (0x01#8 :: zeros 11).getD 0 0x00#8 ≠ 0x00#8 ∧ ∃ e, oaepDecode Config.toy keyTn (zeros 12) [] = .error e :=
  ⟨by decide, by decide +kernel, by decide +kernel, by decide +kernel, by decide, _, rfl⟩

theorem witness_EncryptRaisesOnlyEncodeErrors :
    Config.toy.Valid ∧ byteLen keyTn ≤ Config.toy.kmax ∧
    (∀ seed, some (oct [0xA5, 0x5A]) = some seed → seed.length = Config.toy.hlen) ∧
    (∃ err, rsaEncrypt Config.toy keyTn 65537 (zeros 7) [] (some (oct [0xA5, 0x5A])) = .error err) ∧
    ∃ em, oaepEncode Config.toy keyTn (zeros 6) [] (some (oct [0xA5, 0x5A])) = .ok em :=
  ⟨by decide, by decide +kernel, by rintro _ ⟨⟩; rfl, ⟨_, rfl⟩, _, rfl⟩

/-- Below the modulus the primitive is the power: what the key relation of the next witness needs. -/
theorem prim_pow {v x n : Nat} (h : v < n) : prim v x n = .ok (v ^ x % n) := by
  unfold prim modExp
  rw [if_neg (by omega), modExpLoop_eq, one_pow, one_mul, Nat.mod_eq_of_lt (lt_two_pow_bitLen x)]

/-- Fermat's little theorem, for every base. -/
theorem pow_modEq_self {p t v : Nat} (hp : Nat.Prime p) : v ^ (1 + t * (p - 1)) ≡ v [MOD p] := by
  have := Fact.mk hp
  rw [← ZMod.natCast_eq_natCast_iff]
  push_cast
  by_cases h : (v : ZMod p) = 0
  · simp [h]
  · rw [pow_add, pow_one, mul_comm t, pow_mul, ZMod.pow_card_sub_one_eq_one h, one_pow, mul_one]

/-- The key relation of 43_rsa R164 holds of a key of two primes. -/
theorem key_relation {p q e d t u : Nat} (hp : Nat.Prime p) (hq : Nat.Prime q) (hpq : Nat.Coprime p q)
    (ht : e * d = 1 + t * (p - 1)) (hu : e * d = 1 + u * (q - 1)) (v : Nat) (hv : v < p * q) :
    ∃ r, prim v e (p * q) = .ok r ∧ prim r d (p * q) = .ok v := by
  refine ⟨_, prim_pow hv, ?_⟩
  rw [prim_pow (Nat.mod_lt _ (by omega)), ← Nat.pow_mod, ← pow_mul]
  have h1 : v ^ (e * d) ≡ v [MOD p] := ht ▸ pow_modEq_self hp
  have h2 : v ^ (e * d) ≡ v [MOD q] := hu ▸ pow_modEq_self hq
  rw [(Nat.modEq_and_modEq_iff_modEq_mul hpq).mp ⟨h1, h2⟩, Nat.mod_eq_of_lt hv]

/-- A configuration with a one-octet digest, and a key of four octets: `n = 4099 * 4111`, `e = 7`, `d = 2005093`; the empty message is the
longest that fits. -/
theorem witness_EncryptDecryptRoundTrip :
    ({ kmax := 4, bmax := 4, lmax := 0, hlen := 1, hash := .free 0 } : Config).Valid ∧ byteLen (4099 * 4111) ≤ 4 ∧
    (∀ v, v < 4099 * 4111 → ∃ r, prim v 7 (4099 * 4111) = .ok r ∧ prim r 2005093 (4099 * 4111) = .ok v) ∧
    (oct [0x5A]).length = 1 ∧ ([] : Octets).length + 2 * 1 + 2 ≤ byteLen (4099 * 4111) :=
  ⟨by decide, by decide +kernel,
    key_relation (t := 3425) (u := 3415) (by norm_num) (by norm_num) (by norm_num) (by norm_num) (by norm_num), rfl,
    by decide +kernel⟩

theorem witness_KIsTheByteLengthOfN :
    kOf (key3233 0) ≠ 0 ∧ kOf (loaded 0 0 0 0 [] []) = 0 ∧ (key3233 0).seq = .idle := by decide +kernel

theorem witness_NopOnlyEnds : ∃ t, exec .nop (key3233 42) = .next t := ⟨_, rfl⟩

/-- `X = 255` in one octet, and `ALEN = BMAX`. -/
theorem witness_I2ospPutsTheOctetsInObuf :
    ({ key3233 255 with alen := 1#64 }.cfg.Valid ∧
      intOf { key3233 255 with alen := 1#64 } .xwin < 256 ^ lengthArg { key3233 255 with alen := 1#64 } ∧
      lengthArg { key3233 255 with alen := 1#64 } ≤ (key3233 255).cfg.bmax) ∧
    intOf { key3233 255 with alen := 16#64 } .xwin < 256 ^ lengthArg { key3233 255 with alen := 16#64 } ∧
      lengthArg { key3233 255 with alen := 16#64 } ≤ (key3233 255).cfg.bmax := by decide +kernel

/-- A full MBUF. -/
theorem witness_Os2ipPutsTheNumberInYwin :
    (loaded 0 0 0 0 (octetsOf (256 ^ 16 - 1) 16) []).cfg.Valid ∧
    os2ip (mbufString (loaded 0 0 0 0 (octetsOf (256 ^ 16 - 1) 16) [])) <
      256 ^ (loaded 0 0 0 0 (octetsOf (256 ^ 16 - 1) 16) []).cfg.kmax := by decide +kernel

theorem witness_Mgf1PutsTheMaskInObuf :
    { key3233 0 with alen := 16#64 }.cfg.Valid ∧
    lengthArg { key3233 0 with alen := 16#64 } ≤ (key3233 0).cfg.bmax := by decide +kernel

theorem witness_PublicPrimitivesRaiseToE :
    (Instr.rsaep = .rsaep ∨ Instr.rsaep = .rsavp1) ∧ (key3233 3232).cfg.Valid ∧
    intOf (key3233 3232) .xwin < intOf (key3233 3232) .nwin := by decide +kernel
theorem witness_SecretPrimitivesRaiseToD :
    (Instr.rsasp1 = .rsadp ∨ Instr.rsasp1 = .rsasp1) ∧ (key3233 3232).cfg.Valid ∧
    intOf (key3233 3232) .xwin < intOf (key3233 3232) .nwin := by decide +kernel

/-- KEY-T with a message of exactly the capacity, the randomness port about to answer `00 01`. -/
def full : State := withDraw (keyT (oct [0x01, 0x00, 0x01, 0x02, 0x03, 0xFF]) (oct [0x4C, 0x31])) (some (oct [0x00, 0x01]))

theorem witness_OaepEncPutsTheEncodingInObuf :
    full.cfg.Valid ∧ full.mlen.toNat + 2 * full.cfg.hlen + 2 ≤ kOf full ∧ drawAnswer full = some (oct [0x00, 0x01]) := by
  decide +kernel
theorem witness_EncryptPutsTheCiphertextInObuf :
    full.cfg.Valid ∧ full.mlen.toNat + 2 * full.cfg.hlen + 2 ≤ kOf full ∧ drawAnswer full = some (oct [0x00, 0x01]) := by
  decide +kernel

/-- A result read off as an option. -/
theorem ok_of_toOption {α : Type} {r : Except CoreError α} {x : α} (h : r.toOption = some x) : r = .ok x := by
  cases r with
  | error _ => cases h
  | ok _ => cases h; rfl

/-- V-OAEP-3: the empty message. -/
def emptyEncoded : State := keyT (oct [0x00, 0x2C, 0x42, 0xDD, 0x80, 0x76, 0x4E, 0x76, 0x4F, 0x76, 0x50, 0x77]) []

theorem witness_OaepDecRecoversTheMessage :
    emptyEncoded.cfg.Valid ∧ (oct [0xFF, 0xFF]).length = emptyEncoded.cfg.hlen ∧
    oaepEncode emptyEncoded.cfg (intOf emptyEncoded .nwin) [] (labelString emptyEncoded) (some (oct [0xFF, 0xFF])) =
      .ok (mbufString emptyEncoded) := ⟨by decide, rfl, ok_of_toOption (by decide +kernel)⟩

/-- V-ENC-1's ciphertext under KEY-T. -/
def encrypted : State := keyT (oct [0x90, 0xEE, 0xBF, 0x35, 0xDF, 0x44, 0x11, 0xE7, 0xD0, 0xAC, 0xDF, 0x98]) []

/-- V-OAEP-1's EM. -/
def encryptedEM : Octets := oct [0x00, 0x67, 0x34, 0x83, 0x8F, 0x28, 0x43, 0x28, 0x44, 0x29, 0x2D, 0x41]

theorem witness_DecryptRecoversTheMessage :
    (encrypted.cfg.Valid ∧ encrypted.mlen.toNat = kOf encrypted ∧
      os2ip (mbufString encrypted) < intOf encrypted .nwin ∧ (oct [0xA5, 0x5A]).length = encrypted.cfg.hlen) ∧
    oaepEncode encrypted.cfg (intOf encrypted .nwin) (oct [0x68, 0x69]) (labelString encrypted) (some (oct [0xA5, 0x5A])) =
      .ok encryptedEM ∧
    os2ip encryptedEM = os2ip (mbufString encrypted) ^ intOf encrypted .dwin % intOf encrypted .nwin := by
  refine ⟨by decide +kernel, ok_of_toOption (by decide +kernel), ?_⟩
  have hlt : os2ip (mbufString encrypted) < intOf encrypted .nwin := by decide +kernel
  have h : prim (os2ip (mbufString encrypted)) (intOf encrypted .dwin) (intOf encrypted .nwin) = .ok (os2ip encryptedEM) :=
    ok_of_toOption (by decide +kernel)
  rw [prim_pow hlt] at h
  exact (Except.ok.inj h).symm

theorem witness_CommandsReportTheFirstCause : ∃ t, (key3233 3233).cfg.Valid ∧ exec .rsaep (key3233 3233) = .next t :=
  ⟨_, by decide, rfl⟩

theorem witness_FailedCommandsLeaveNothing :
    ∃ t, (key3233 3233).cfg.Valid ∧ Instr.rsaep ≠ .nop ∧ exec .rsaep (key3233 3233) = .next t ∧ t.errcode ≠ 0#4 :=
  ⟨_, by decide, by decide, rfl, by decide +kernel⟩

theorem witness_DecodeFailuresAreIndistinguishable :
    (∃ t, (keyT (zeros 12) []).cfg.Valid ∧ exec .oaepDec (keyT (zeros 12) []) = .next t ∧
      (Instr.oaepDec = .oaepDec ∧ t.errcode ≠ 0#4)) ∧
    ∃ t, (keyT (zeros 12) []).cfg.Valid ∧ exec .decrypt (keyT (zeros 12) []) = .next t ∧
      (Instr.decrypt = .decrypt ∧ t.errcode = 4#4) :=
  ⟨⟨_, by decide, rfl, rfl, by decide +kernel⟩, _, by decide, rfl, rfl, by decide +kernel⟩

theorem witness_DataCommandFrame : ∃ t, full.cfg.Valid ∧ exec .encrypt full = .next t := ⟨_, by decide, rfl⟩

theorem witness_PortAskedOnlyAfterTheLengthCheck : ∃ t, exec .encrypt full = .next t ∧ t.env.asked = 1 :=
  ⟨_, rfl, by decide +kernel⟩

/-- One octet over the capacity, and exactly the capacity. -/
theorem witness_CapacityBoundaryOfEncoding :
    (∃ t, (keyT (zeros 7) []).cfg.Valid ∧ (Instr.encrypt = .oaepEnc ∨ Instr.encrypt = .encrypt) ∧
      exec .encrypt (keyT (zeros 7) []) = .next t ∧
      (keyT (zeros 7) []).mlen.toNat + 2 * (keyT (zeros 7) []).cfg.hlen + 1 = kOf (keyT (zeros 7) [])) ∧
    ∃ t, full.cfg.Valid ∧ (Instr.oaepEnc = .oaepEnc ∨ Instr.oaepEnc = .encrypt) ∧ exec .oaepEnc full = .next t ∧
      full.mlen.toNat + 2 * full.cfg.hlen + 2 = kOf full ∧ drawAnswer full ≠ none :=
  ⟨⟨_, by decide, .inr rfl, rfl, by decide +kernel⟩,
    _, by decide, .inl rfl, rfl, by decide +kernel, by decide +kernel⟩

theorem witness_EveryCompletionRaisesIrq :
    ∃ t, busy42.seq = .busy ∧ coreToMove busy42 ∧ step busy42 = .next t := ⟨_, rfl, .inl rfl, rfl⟩

/-- A read that is refused while BUSY. -/
theorem witness_HostReadsChangeNothing : hostRead busy42 0x6000 1 = (.err, 0#32) := by decide +kernel

/-- A refused write, and one address for each ground of refusal. -/
theorem witness_RefusedTransactionsChangeNothing :
    (∃ t, hostWrite busy42 0x6000 1 1#32 = (.err, t)) ∧ ((2 : Nat) ≠ 1 ∧ (2 : Nat) ≠ 4) ∧ 0x1002 % 4 ≠ 0 ∧
    (0x9000 : Nat) ≤ 0x9000 ∧ ((0x0FFF : Nat) < 0x1000 ∧ (1 : Nat) ≠ 4) ∧
    ((0x0018 : Nat) ≤ 0x001C ∧ 0x001C < 0x0020) ∧ ((0x0038 : Nat) ≤ 0x0038 ∧ 0x0FFC < 0x1000) ∧
    16 < 0x1000 ∧ windowCap (key3233 0).cfg .nwin < 16 + 4 := ⟨⟨_, rfl⟩, by decide⟩

theorem witness_BusyLocksOutOperandsAndCmd : busy42.seq = .busy ∧ (0x0020 : Nat) ≤ 0x0020 := by decide

theorem witness_LengthRegistersRefuseOverCapacity :
    (17#32).toNat > (key3233 0).cfg.bmax ∧ (9#32).toNat > (key3233 0).cfg.lmax ∧
    ((key3233 0).seq = .idle ∧ (16#32).toNat ≤ (key3233 0).cfg.bmax) ∧
    (key3233 0).seq = .idle ∧ (8#32).toNat ≤ (key3233 0).cfg.lmax := by decide

theorem witness_DwinAndCmdReadZero :
    (key3233 0).cfg.Valid ∧ (key3233 0).seq = .idle ∧ ((4 : Nat) = 1 ∨ (4 : Nat) = 4) ∧ 12 % 4 = 0 ∧
    12 + 4 ≤ (key3233 0).cfg.kmax := by decide

/-- The last four octets of YWIN, a 4-octet write and a 1-octet write. -/
theorem witness_WindowAccessesAreBigEndian :
    ((key3233 0).cfg.Valid ∧ (key3233 0).seq = .idle ∧ Window.ywin ≠ .dwin ∧ ((4 : Nat) = 1 ∨ (4 : Nat) = 4) ∧ 12 % 4 = 0 ∧
      12 + 4 ≤ windowCap (key3233 0).cfg .ywin) ∧
    (∃ t, (0x1000 : Nat) ≤ 0x400C ∧ 0x400C / 0x1000 ≠ 3 ∧ hostWrite (key3233 0) 0x400C 4 0x0CA10000#32 = (.okay, t) ∧
      (3 : Nat) < 4) ∧
    ∃ t, (0x1000 : Nat) ≤ 0x7007 ∧ 0x7007 / 0x1000 ≠ 3 ∧ hostWrite (key3233 0) 0x7007 1 0xABCD#32 = (.okay, t) :=
  ⟨by decide, ⟨_, by decide, by decide, rfl, by decide⟩, _, by decide, by decide, rfl⟩

/-- The last octet of DWIN, the last octet of LBUF, and the two read-only windows. -/
theorem witness_WindowWritesStayInPlace :
    ((key3233 0).cfg.Valid ∧ (key3233 0).seq = .idle ∧ Window.dwin ≠ .ywin ∧ Window.dwin ≠ .obuf ∧
      ((1 : Nat) = 1 ∨ (1 : Nat) = 4) ∧ 15 % 1 = 0 ∧ 15 + 1 ≤ windowCap (key3233 0).cfg .dwin) ∧
    (∃ t, (0x1000 : Nat) ≤ 0x7007 ∧ hostWrite (key3233 0) 0x7007 1 0xFF#32 = (.okay, t)) ∧
    0x5000 / 0x1000 = 5 ∧ 0x800F / 0x1000 = 8 := ⟨by decide, ⟨_, by decide, rfl⟩, by decide⟩

theorem witness_CtrlRegisterLayout : (0xFFFFFFFD#32).getLsbD 1 = false := by decide
theorem witness_IdentificationRegisters : Config.toy.Valid ∧ (key3233 0).cfg = Config.toy := by decide
theorem witness_AlenIsWrittenInHalves : (key3233 0).seq = .idle := by decide

end Sys2Proof.Tests
end

/-! ## Proofs for 10_state -/

namespace Sys2Proof.Machine

/-! ### Reset: every derived value is zero (10_state R51) -/

theorem Memory.readBytes_nil (a n : Nat) : Memory.readBytes [] a n = zeros n := by
  induction n generalizing a with
  | zero => rfl
  | succ n ih =>
    rw [Memory.readBytes, ih, Memory.read_nil]
    rfl

theorem os2ip_zeros (n : Nat) : os2ip (zeros n) = 0 := by
  induction n with
  | zero => rfl
  | succ n ih =>
    rw [show zeros (n + 1) = 0x00#8 :: zeros n from rfl, os2ip_cons, ih]
    simp

@[simp] theorem intOf_resetBlock (s : State) (w : Window) : intOf (resetBlock s) w = 0 := by
  rw [intOf, windowPart, resetBlock_mem, Memory.readBytes_nil, os2ip_zeros]

@[simp] theorem kOf_resetBlock (s : State) : kOf (resetBlock s) = 0 := by
  rw [kOf, intOf_resetBlock]
  rfl

/-- STATUS as a number (10_state R40), from the state's fields. -/
theorem statusWord_toNat (s : State) :
    (statusWord s).toNat = (if s.seq = .busy then 1 else 0) + (if s.done then 2 else 0) + (if s.errcode ≠ 0#4 then 4 else 0) +
      s.errcode.toNat * 2 ^ 8 + s.cmdr.toNat % 256 * 2 ^ 16 := by
  rw [statusWord, statusFields_toNat, BitVec.extractLsb'_toNat]
  simp only [errFlag, busyFlag, Bool.toNat, Bool.cond_eq_ite, decide_eq_true_eq, Nat.shiftRight_zero]
  split <;> split <;> split <;> omega

theorem statusWord_resetBlock (s : State) : statusWord (resetBlock s) = 0#32 :=
  BitVec.eq_of_toNat_eq (by rw [statusWord_toNat]; simp)

theorem allZero_resetBlock (s : State) : AllZero (resetBlock s) :=
  ⟨fun _ => rfl, rfl, rfl, rfl, rfl, rfl, rfl, rfl, rfl, rfl, rfl, intOf_resetBlock s _, intOf_resetBlock s _,
    intOf_resetBlock s _, intOf_resetBlock s _, kOf_resetBlock s, statusWord_resetBlock s, rfl⟩

/-! ### The registers at the host port: which branch of 20_memory R62 and R63 answers -/

/-- A 4-octet read of a register address is answered by the register, but for an operand register while BUSY (20_memory R62). -/
theorem hostRead_register {s : State} {a : Nat} (ha : a < 0x1000) (h4 : a % 4 = 0) (hb : a < 0x0020 ∨ s.seq = .idle) :
    hostRead s a 4 = readRegister s a := by
  have hfree : ¬(a ≥ 0x0020 ∧ s.seq = .busy) := by
    rintro ⟨h1, h2⟩
    rcases hb with h | h
    · omega
    · simp [h] at h2
  rw [hostRead, if_neg (by omega), if_pos ha, if_neg (by omega), if_neg hfree]

/-- A 4-octet write that the control block answers (20_memory R63, first `case`). -/
theorem hostWrite_control {s : State} {a : Nat} {v : Word} {r : Resp × State} (ha : a < 0x1000) (h4 : a % 4 = 0)
    (h : writeControl s a v = some r) : hostWrite s a 4 v = r := by
  rw [hostWrite, if_neg (by omega), if_pos ha, if_neg (by omega), h]

/-- A 4-octet write that the operand block answers (20_memory R63, second `case`), while IDLE. -/
theorem hostWrite_operand {s : State} {a : Nat} {v : Word} (ha : a < 0x1000) (h4 : a % 4 = 0)
    (h : writeControl s a v = none) (hi : s.seq = .idle) : hostWrite s a 4 v = writeOperand s a v := by
  rw [hostWrite, if_neg (by omega), if_pos ha, if_neg (by omega), h]
  simp [hi]

/-- A register with no write of its own refuses every write, IDLE or BUSY (20_memory R69). -/
theorem hostWrite_readOnly {s : State} {a : Nat} {v : Word} (ha : a < 0x1000) (h4 : a % 4 = 0)
    (h : writeControl s a v = none) (ho : writeOperand s a v = (.err, s)) : hostWrite s a 4 v = (.err, s) := by
  rw [hostWrite, if_neg (by omega), if_pos ha, if_neg (by omega), h]
  simp [ho]

/-- A write of CTRL with SRST set is the reset of the block (70_reset R232). -/
theorem hostWrite_softReset {s : State} {v : Word} (hv : v.getLsbD 1 = true) :
    hostWrite s 0x000C 4 v = (.okay, resetBlock s) :=
  hostWrite_control (by omega) (by omega) (by rw [writeControl, if_pos hv])

/-- Settles O1: each of the three states is `resetBlock` of some state. -/
theorem resetIsAllZero : Obligations.ResetIsAllZero := by
  refine ⟨allZero_resetBlock State.reset, fun s t h => ?_, fun s v r t hv h => ?_⟩
  · cases h
    exact allZero_resetBlock s
  · rw [hostWrite_softReset hv] at h
    cases h
    exact allZero_resetBlock s

/-! ### The register words -/

/-- Settles O57, from the fields of the STATUS word as numbers. -/
theorem statusRegisterLayout : Obligations.StatusRegisterLayout := by
  intro s
  exact ⟨⟨statusWord s, hostRead_register (by omega) (by omega) (.inl (by omega)), statusWord_toNat s⟩,
    fun v => hostWrite_control (by omega) (by omega) rfl⟩

/-- Settles O58: CTRL holds one stored bit. -/
theorem ctrlRegisterLayout : Obligations.CtrlRegisterLayout := by
  intro s
  have hword : ctrlWord s = if s.ie then 1#32 else 0#32 := by
    rw [ctrlWord]
    cases s.ie <;> rfl
  refine ⟨?_, fun v hv => ?_⟩
  · rw [hostRead_register (by omega) (by omega) (.inl (by omega)), ← hword]
    rfl
  · exact hostWrite_control (by omega) (by omega) (by rw [writeControl, hv]; rfl)

/-- CAP0 as a number (10_state R37). -/
theorem cap0Word_toNat {c : Config} (hc : c.Valid) : (cap0Word c).toNat = c.kmax + c.bmax * 2 ^ 16 := by
  obtain ⟨⟨_, _, hk⟩, ⟨_, _, hb⟩, _⟩ := hc
  rw [cap0Word, BitVec.toNat_append, shiftLeft_or_eq (BitVec.isLt _), BitVec.toNat_ofNat, BitVec.toNat_ofNat]
  omega

/-- CAP1 as a number (10_state R38). -/
theorem cap1Word_toNat {c : Config} (hc : c.Valid) : (cap1Word c).toNat = c.lmax + c.hlen * 2 ^ 16 := by
  obtain ⟨_, _, ⟨_, hl⟩, ⟨_, hh⟩, _⟩ := hc
  rw [cap1Word, BitVec.toNat_append, shiftLeft_or_eq (BitVec.isLt _), BitVec.toNat_append, shiftLeft_or_eq (BitVec.isLt _)]
  simp only [BitVec.toNat_ofNat]
  omega

/-- Settles O59: three constants of the build, with no write of their own. -/
theorem identificationRegisters : Obligations.IdentificationRegisters := by
  refine ⟨fun s hc => ⟨?_, ⟨_, ?_, cap0Word_toNat hc⟩, ⟨_, ?_, cap1Word_toNat hc⟩, fun v => ⟨?_, ?_, ?_⟩⟩, ?_⟩
  · exact hostRead_register (by omega) (by omega) (.inl (by omega))
  · exact hostRead_register (by omega) (by omega) (.inl (by omega))
  · exact hostRead_register (by omega) (by omega) (.inl (by omega))
  · exact hostWrite_readOnly (by omega) (by omega) rfl rfl
  · exact hostWrite_readOnly (by omega) (by omega) rfl rfl
  · exact hostWrite_readOnly (by omega) (by omega) rfl rfl
  · exact ⟨by decide, by decide⟩

/-! ### ALEN and its halves (10_state R31) -/

/-- ALEN_LO, the low half. -/
theorem hostWrite_alenLo {s : State} (hi : s.seq = .idle) (v : Word) :
    hostWrite s 0x0020 4 v = (.okay, { s with alen := s.alen.extractLsb' 32 32 ++ v }) :=
  hostWrite_operand (by omega) (by omega) rfl hi

/-- ALEN_HI, the high half. -/
theorem hostWrite_alenHi {s : State} (hi : s.seq = .idle) (v : Word) :
    hostWrite s 0x0024 4 v = (.okay, { s with alen := v ++ s.alen.extractLsb' 0 32 }) :=
  hostWrite_operand (by omega) (by omega) rfl hi

theorem halves_toNat (hi lo : Word) : (hi ++ lo : DWord).toNat = hi.toNat * 2 ^ 32 + lo.toNat := by
  rw [BitVec.toNat_append, shiftLeft_or_eq lo.isLt]

theorem lowHalf_append (hi lo : Word) : (hi ++ lo : DWord).extractLsb' 0 32 = lo := by
  apply BitVec.eq_of_toNat_eq
  rw [BitVec.extractLsb'_toNat, halves_toNat]
  omega

theorem highHalf_append (hi lo : Word) : (hi ++ lo : DWord).extractLsb' 32 32 = hi := by
  apply BitVec.eq_of_toNat_eq
  rw [BitVec.extractLsb'_toNat, halves_toNat, Nat.shiftRight_eq_div_pow]
  omega

theorem highHalf_toNat (x : DWord) : (x.extractLsb' 32 32).toNat = x.toNat / 2 ^ 32 := by
  rw [BitVec.extractLsb'_toNat, Nat.shiftRight_eq_div_pow]
  omega

/-- Both halves of ALEN read back while IDLE. -/
theorem hostRead_alen {s : State} (hi : s.seq = .idle) :
    hostRead s 0x0020 4 = (.okay, s.alen.extractLsb' 0 32) ∧ hostRead s 0x0024 4 = (.okay, s.alen.extractLsb' 32 32) :=
  ⟨hostRead_register (by omega) (by omega) (.inr hi), hostRead_register (by omega) (by omega) (.inr hi)⟩

/-- What a pair of writes of both halves leaves, in either order: the pair in ALEN, all else as it was, each half reading back. -/
theorem alen_pair {s u : State} {lo hi : Word} (hs : s.seq = .idle) (hu : u = { s with alen := hi ++ lo }) :
    lengthArg u = hi.toNat * 2 ^ 32 + lo.toNat ∧ { u with alen := s.alen } = s ∧
      hostRead u 0x0020 4 = (.okay, lo) ∧ hostRead u 0x0024 4 = (.okay, hi) := by
  subst hu
  obtain ⟨hlo, hhi⟩ := hostRead_alen (s := { s with alen := hi ++ lo }) hs
  exact ⟨halves_toNat hi lo, rfl, by rw [hlo, lowHalf_append], by rw [hhi, highHalf_append]⟩

/-- Settles O60: each half is written alone, and the second write of a pair keeps what the first wrote. -/
theorem alenIsWrittenInHalves : Obligations.AlenIsWrittenInHalves := by
  intro s lo hi hs
  refine ⟨⟨_, hostWrite_alenLo hs lo, ?_, rfl⟩, ⟨_, hostWrite_alenHi hs hi, ?_, rfl⟩,
    ⟨_, _, hostWrite_alenLo hs lo, ?_, alen_pair hs (lo := lo) (hi := hi) rfl⟩,
    _, _, hostWrite_alenHi hs hi, ?_, alen_pair hs (lo := lo) (hi := hi) rfl⟩
  · rw [lengthArg, halves_toNat, highHalf_toNat, lengthArg]
  · rw [lengthArg, halves_toNat, BitVec.extractLsb'_toNat, Nat.shiftRight_zero, lengthArg]
  · rw [hostWrite_alenHi (by exact hs), lowHalf_append]
  · rw [hostWrite_alenLo (by exact hs), highHalf_append]

/-! ### K, the byte length of N (10_state R35) -/

/-- The byte length of a string's value is the string's length without its leading zero octets. -/
theorem byteLen_os2ip (xs : Octets) :
    byteLen (os2ip xs) = xs.length - (xs.takeWhile (fun b => decide (b = 0x00#8))).length := by
  induction xs with
  | nil => rfl
  | cons b xs ih =>
    by_cases hb : b = 0x00#8
    · rw [os2ip_cons, hb, List.takeWhile_cons_of_pos (by simp)]
      simp [ih]
    · rw [List.takeWhile_cons_of_neg (by simp [hb])]
      have hle : byteLen (os2ip (b :: xs)) ≤ xs.length + 1 := byteLen_le (os2ip_lt (b :: xs))
      have hb1 : 1 ≤ b.toNat := Nat.one_le_iff_ne_zero.mpr (fun h => hb (BitVec.eq_of_toNat_eq h))
      have hge : 256 ^ xs.length ≤ os2ip (b :: xs) := by
        rw [os2ip_cons]
        exact (Nat.le_mul_of_pos_left _ hb1).trans (Nat.le_add_right _ _)
      have hgt : xs.length < byteLen (os2ip (b :: xs)) :=
        (Nat.pow_lt_pow_iff_right (by omega)).mp (hge.trans_lt (lt_pow_byteLen _))
      simp only [List.length_cons, List.length_nil]
      omega

theorem byteLen_eq_zero {x : Nat} : byteLen x = 0 ↔ x = 0 := by
  constructor
  · intro h
    have := lt_pow_byteLen x
    rw [h] at this
    omega
  · rintro rfl
    rfl

/-- Settles O32: K is `byteLen` of the value of NWIN, and no write reaches its address. -/
theorem kIsTheByteLengthOfN : Obligations.KIsTheByteLengthOfN := by
  intro s
  refine ⟨rfl, ?_, byteLen_eq_zero, kOf_le s, lt_pow_byteLen _, fun hk => pow_le_of_byteLen ?_, fun hi => ?_, fun v => ?_⟩
  · rw [kOf, intOf, byteLen_os2ip, windowPart_length]
  · rw [kOf] at hk ⊢
    omega
  · exact hostRead_register (by omega) (by omega) (.inr hi)
  · exact hostWrite_readOnly (by omega) (by omega) rfl rfl

/-! ### The randomness port (10_state R45) -/

@[simp] theorem completeString_env (s : State) (r : Except CoreError Octets) : (completeString s r).env = s.env := by
  cases r <;> rfl

@[simp] theorem completeInt_env (s : State) (r : Except CoreError Nat) : (completeInt s r).env = s.env := by
  rcases completeInt_cases s r with ⟨_, _, h⟩ | ⟨_, _, _, h⟩ | ⟨_, _, _, h⟩ <;> rw [h] <;> rfl

theorem asksDraw_iff {s : State} : asksDraw s = true ↔ s.mlen.toNat + 2 * s.cfg.hlen + 2 ≤ kOf s := by
  rw [asksDraw, oaepFits_iff, mbufString_length]

/-- An encoding asks the port once if its length check passes, and not at all otherwise (42_oaep R131). -/
theorem afterDraw_asked (s : State) :
    (afterDraw s).env.asked = s.env.asked + if s.mlen.toNat + 2 * s.cfg.hlen + 2 ≤ kOf s then 1 else 0 := by
  simp only [afterDraw, asksDraw_iff]
  split <;> rfl

/-- A command that encodes nothing leaves the outside world alone (10_state R45). -/
theorem exec_env {s t : State} {i : Instr} (h1 : i ≠ .oaepEnc) (h2 : i ≠ .encrypt) (h : exec i s = .next t) :
    t.env = s.env := by
  cases i with
  | nop => cases h; rfl
  | i2osp | mgf1 | oaepDec | decrypt => cases h; exact completeString_env s _
  | os2ip | rsaep | rsadp | rsasp1 | rsavp1 => cases h; exact completeInt_env s _
  | oaepEnc => exact absurd rfl h1
  | encrypt => exact absurd rfl h2

/-- Settles O47: the two encoding commands ask through `afterDraw`, the others leave the world alone. -/
theorem portAskedOnlyAfterTheLengthCheck : Obligations.PortAskedOnlyAfterTheLengthCheck := by
  intro s t i h
  by_cases hi : i = .oaepEnc ∨ i = .encrypt
  · have henv : t.env = (afterDraw s).env := by
      rcases hi with rfl | rfl <;> cases h <;> exact completeString_env _ _
    simp only [henv, afterDraw_asked, hi, true_and]
  · obtain ⟨h1, h2⟩ := not_or.mp hi
    simp [exec_env h1 h2 h, hi]

end Sys2Proof.Machine

namespace Sys2Proof.Machine

/-! ### What COMPLETE leaves alone (44_control R184) -/

theorem inOutput_eq_false {c : Config} {a : Nat} :
    inOutput c a = false ↔ inWindow c .obuf a = false ∧ inWindow c .ywin a = false := by simp [inOutput]

theorem keepsOperands_refl (s : State) : KeepsOperands s s := ⟨rfl, rfl, rfl, rfl, rfl, rfl, fun _ _ => rfl⟩

theorem keepsOperands_clearOutputs (s : State) : KeepsOperands s (clearOutputs s) := by
  refine ⟨rfl, rfl, rfl, rfl, rfl, rfl, fun a ha => ?_⟩
  obtain ⟨ho, hy⟩ := inOutput_eq_false.mp ha
  rw [read_clearOutputs, if_neg (by simp [ho, hy])]

/-- A result that fits its output window touches no operand. -/
theorem keepsOperands_putWindow (s : State) {w : Window} (hw : w = .obuf ∨ w = .ywin) {xs : Octets}
    (hl : xs.length ≤ windowCap s.cfg w) : KeepsOperands s (putWindow (clearOutputs s) w xs) := by
  refine ⟨rfl, rfl, rfl, rfl, rfl, rfl, fun a ha => ?_⟩
  obtain ⟨ho, hy⟩ := inOutput_eq_false.mp ha
  have hwa : inWindow s.cfg w a = false := by
    rcases hw with rfl | rfl
    · exact ho
    · exact hy
  rw [read_putWindow_clearOutputs s hw hl]
  simp [hwa, ho, hy]

/-- Every command, whatever it ends in, keeps its operands (44_control R184). -/
theorem exec_keepsOperands {s t : State} {i : Instr} (hc : s.cfg.Valid) (h : exec i s = .next t) : KeepsOperands s t := by
  rcases exec_cases i s hc with ⟨_, he⟩ | ⟨u, e, hu, _, he⟩ | ⟨u, xs, hu, hl, he⟩ | ⟨xs, hl, he⟩ <;> rw [he] at h <;> cases h
  case inl => exact keepsOperands_refl s
  case inr.inl =>
    rcases hu with rfl | rfl
    · exact keepsOperands_clearOutputs u
    · exact keepsOperands_clearOutputs (drawTaken s)
  case inr.inr.inl =>
    rcases hu with rfl | rfl
    · exact keepsOperands_putWindow u (.inl rfl) hl
    · exact keepsOperands_putWindow (drawTaken s) (.inl rfl) hl
  case inr.inr.inr => exact keepsOperands_putWindow s (.inr rfl) (Nat.le_of_eq hl)

/-- The core's move keeps the operands, IDLE or BUSY, the word legal or not. -/
theorem coreMove_keepsOperands {s t : State} (hc : s.cfg.Valid) (h : coreMove s = .next t) : KeepsOperands s t := by
  rcases coreMove_cases s with ⟨_, hm⟩ | ⟨_, _, hm⟩ | ⟨i, _, _, hm⟩ <;> rw [hm] at h
  · cases h
    exact keepsOperands_refl s
  · cases h
    exact keepsOperands_refl s
  · exact exec_keepsOperands hc h

/-- Settles O13, by the kind of the step's event. -/
theorem onlyHostAndResetWriteOperands : Obligations.OnlyHostAndResetWriteOperands := by
  intro s t hc h hwrite hreset
  rcases step_cases s with ⟨_, hs⟩ | ⟨e, es, hag, hs⟩ <;> rw [hs] at h
  · exact coreMove_keepsOperands hc h
  · cases e with
    | hostRead a n =>
      cases h
      exact keepsOperands_refl s
    | hostWrite a n v => exact absurd hag (hwrite es a n v)
    | coreTurn => exact coreMove_keepsOperands (s := dropEvent s) hc h
    | hardReset => exact absurd hag (hreset es)

/-! ### The invariants of 10_state R50, one operation at a time -/

/-- Nothing outside the block is part of the invariants. -/
theorem inv_withEnv {s : State} (h : Inv s) (e : Env) : Inv { s with env := e } := { h with }

theorem inv_resetBlock {s : State} (hc : s.cfg.Valid) : Inv (resetBlock s) where
  cfg_valid := hc
  mlen_le := Nat.zero_le _
  llen_le := Nat.zero_le _
  olen_le := Nat.zero_le _
  obuf_tail := fun _ _ _ => rfl
  not_busy_done := by simp
  errcode_known := Nat.zero_le _
  busy_clean := by simp
  idle_scratch := fun _ => rfl
  mem_wf := Memory.wf_nil
  mem_mapped := by simp

/-- Settles O11: reset is the reset of the state with the default parameters. -/
theorem resetMeetsTheInvariants : Obligations.ResetMeetsTheInvariants := inv_resetBlock (s := State.reset) (by decide)

theorem inv_issue {s : State} (h : Inv s) (w : Word) : Inv (issue s w) :=
  { h with
    not_busy_done := by simp
    errcode_known := Nat.zero_le _
    busy_clean := fun _ => ⟨rfl, rfl⟩
    idle_scratch := by simp }

theorem inv_clearDone {s : State} (h : Inv s) : Inv (clearDone s) :=
  { h with
    not_busy_done := by simp
    busy_clean := fun hb => ⟨rfl, (h.busy_clean hb).2⟩ }

theorem inv_finish {s : State} (h : Inv s) {code : BitVec 4} (hcode : code.toNat ≤ 8) : Inv (finish s code) :=
  { h with
    not_busy_done := by simp
    errcode_known := hcode
    busy_clean := by simp
    idle_scratch := fun _ => rfl }

theorem inv_clearOutputs {s : State} (h : Inv s) : Inv (clearOutputs s) :=
  { h with
    olen_le := Nat.zero_le _
    obuf_tail := fun i _ hi => by
      have hin : inWindow s.cfg .obuf (windowBase .obuf + i) = true :=
        inWindow_iff.mpr ⟨Nat.le_add_right _ _, Nat.add_lt_add_left hi _⟩
      rw [read_clearOutputs, if_pos (.inl hin)]
    mem_wf := Memory.wf_clear (Memory.wf_clear h.mem_wf _ _) _ _
    mem_mapped := fun c hc => h.mem_mapped c (Memory.mem_of_mem_clear (Memory.mem_of_mem_clear hc)) }

/-- A write inside any window but OBUF keeps the invariants: the tail of OBUF is on a page of its own. -/
theorem inv_writeBytes {s : State} (h : Inv s) {w : Window} (hw : w ≠ .obuf) {a : Nat} {bs : Octets}
    (ha : windowBase w ≤ a) (hn : a + bs.length ≤ windowBase w + windowCap s.cfg w) :
    Inv { s with mem := Memory.writeBytes s.mem a bs } :=
  { h with
    obuf_tail := fun i hi hb => by
      have hobuf : inWindow s.cfg .obuf (windowBase .obuf + i) = true :=
        inWindow_iff.mpr ⟨Nat.le_add_right _ _, Nat.add_lt_add_left hb _⟩
      have hout : ¬(a ≤ windowBase .obuf + i ∧ windowBase .obuf + i < a + bs.length) := fun ⟨h1, h2⟩ =>
        hw (inWindow_unique h.cfg_valid (inWindow_iff.mpr ⟨ha.trans h1, h2.trans_le hn⟩) hobuf)
      rw [Memory.read_writeBytes, if_neg hout, h.obuf_tail i hi hb]
    mem_wf := Memory.wf_writeBytes h.mem_wf a bs
    mem_mapped := fun c hc => by
      rcases Memory.mem_writeBytes hc with ⟨h1, h2⟩ | hc
      · exact ⟨w, inWindow_iff.mpr ⟨ha.trans h1, h2.trans_le hn⟩⟩
      · exact h.mem_mapped c hc }

/-- A string result: OLEN is its length, and OBUF was cleared beyond it. -/
theorem inv_putString {s : State} (h : Inv s) {xs : Octets} (hl : xs.length ≤ s.cfg.bmax) :
    Inv (putString (clearOutputs s) xs) := by
  have hlen : (BitVec.ofNat 32 xs.length).toNat = xs.length := by
    have : s.cfg.bmax ≤ 4096 := h.cfg_valid.2.1.2.2
    rw [BitVec.toNat_ofNat]
    omega
  have hclear := inv_clearOutputs h
  exact { hclear with
    olen_le := by rw [putString_olen, hlen]; exact hl
    obuf_tail := fun i hi hb => by
      rw [putString_olen, hlen] at hi
      have hout : ¬(windowBase .obuf ≤ windowBase .obuf + i ∧ windowBase .obuf + i < windowBase .obuf + xs.length) := by omega
      rw [putString_mem, Memory.read_writeBytes, if_neg hout, hclear.obuf_tail i (Nat.zero_le i) hb]
    mem_wf := Memory.wf_writeBytes hclear.mem_wf _ xs
    mem_mapped := fun c hc => by
      rcases Memory.mem_writeBytes hc with ⟨h1, h2⟩ | hc
      · exact ⟨.obuf, inWindow_iff.mpr ⟨h1, h2.trans_le (Nat.add_le_add_left hl _)⟩⟩
      · exact hclear.mem_mapped c hc }

/-- Every error a command can raise has a code of at most 8 (60_exceptions R200). -/
theorem errorCode_le {e : CoreError} (he : e ≠ .internalDefect) : (errorCode e).toNat ≤ 8 := by
  cases e with
  | internalDefect => exact absurd rfl he
  | _ => decide

/-! ### Every step keeps the invariants -/

theorem exec_inv {s t : State} {i : Instr} (h : Inv s) (ht : exec i s = .next t) : Inv t := by
  have hdraw : ∀ u, u = s ∨ u = drawTaken s → Inv u := by
    rintro u (rfl | rfl)
    · exact h
    · exact inv_withEnv h _
  rcases exec_cases i s h.cfg_valid with ⟨_, he⟩ | ⟨u, e, hu, hdef, he⟩ | ⟨u, xs, hu, hl, he⟩ | ⟨xs, hl, he⟩ <;>
    rw [he] at ht <;> cases ht
  case inl => exact inv_finish h (by decide)
  case inr.inl => exact inv_finish (inv_clearOutputs (hdraw u hu)) (errorCode_le hdef)
  case inr.inr.inl =>
    have hcfg : u.cfg = s.cfg := by rcases hu with rfl | rfl <;> rfl
    exact inv_finish (inv_putString (hdraw u hu) (hcfg ▸ hl)) (by decide)
  case inr.inr.inr =>
    exact inv_finish
      (inv_writeBytes (inv_clearOutputs h) (w := .ywin) (by decide) (Nat.le_refl _) (Nat.add_le_add_left (Nat.le_of_eq hl) _))
      (by decide)

theorem coreMove_inv {s t : State} (h : Inv s) (ht : coreMove s = .next t) : Inv t := by
  rcases coreMove_cases s with ⟨_, hm⟩ | ⟨_, _, hm⟩ | ⟨i, _, _, hm⟩ <;> rw [hm] at ht
  · cases ht
    exact h
  · cases ht
    exact inv_finish h (by decide)
  · exact exec_inv h ht

theorem hostWrite_inv {s : State} (h : Inv s) (a n : Nat) (v : Word) : Inv (hostWrite s a n v).2 := by
  rcases hostWrite_cases s a n v with hw | ⟨t, hw, ht⟩ <;> rw [hw]
  · exact h
  · rcases ht with rfl | rfl | rfl | rfl | ⟨_, rfl | ⟨x, rfl⟩ | ⟨rfl, hv⟩ | ⟨rfl, hv⟩ | ⟨w, _, hobuf, ha, hn, rfl⟩⟩
    · exact inv_resetBlock h.cfg_valid
    · exact { h with }
    · exact inv_clearDone h
    · exact h
    · exact inv_issue h v
    · exact { h with }
    · exact { h with mlen_le := hv }
    · exact { h with llen_le := hv }
    · exact inv_writeBytes h hobuf ha (by rw [octetsOf_length]; exact hn)

theorem eventStep_inv {s t : State} {e : Event} (h : Inv s) (ht : eventStep s e = .next t) : Inv t := by
  cases e with
  | hostRead a n =>
    cases ht
    exact inv_withEnv h _
  | hostWrite a n v =>
    cases ht
    exact inv_withEnv (hostWrite_inv h a n v) _
  | coreTurn => exact coreMove_inv h ht
  | hardReset =>
    cases ht
    exact inv_resetBlock h.cfg_valid

/-- Settles O12, by the agent that makes the step. -/
theorem everyStepKeepsTheInvariants : Obligations.EveryStepKeepsTheInvariants := by
  intro s t h ht
  rcases step_cases s with ⟨_, hs⟩ | ⟨e, es, _, hs⟩ <;> rw [hs] at ht
  · exact coreMove_inv h ht
  · exact eventStep_inv (inv_withEnv h _) ht

end Sys2Proof.Machine

namespace Sys2Proof.Machine

/-! ### States that differ at most in DWIN (10_state R25) -/

/-- Such a state is the other one with another memory. -/
theorem SameButD.exists_mem {s t : State} (h : SameButD s t) :
    ∃ m, t = { s with mem := m } ∧ ∀ a, inWindow s.cfg .dwin a = false → Memory.read s.mem a = Memory.read m a :=
  ⟨t.mem, congrArg (fun x : State => { x with mem := t.mem }) h.1, h.2⟩

theorem SameButD.cfg_eq {s t : State} (h : SameButD s t) : t.cfg = s.cfg := by
  obtain ⟨m, rfl, _⟩ := h.exists_mem
  rfl

theorem SameButD.seq_eq {s t : State} (h : SameButD s t) : t.seq = s.seq := by
  obtain ⟨m, rfl, _⟩ := h.exists_mem
  rfl

theorem SameButD.cmdr_eq {s t : State} (h : SameButD s t) : t.cmdr = s.cmdr := by
  obtain ⟨m, rfl, _⟩ := h.exists_mem
  rfl

theorem SameButD.env_eq {s t : State} (h : SameButD s t) : t.env = s.env := by
  obtain ⟨m, rfl, _⟩ := h.exists_mem
  rfl

/-- No octet from XWIN's page on is in DWIN. -/
theorem not_inDwin_of_le {c : Config} (hc : c.Valid) {a : Nat} (h : 0x4000 ≤ a) : inWindow c .dwin a = false := by
  have hcap := windowCap_le hc .dwin
  rw [inWindow_false_iff]
  simp only [windowBase]
  omega

theorem sameButD_readBytes {s t : State} (h : SameButD s t) {a n : Nat}
    (ha : ∀ x, a ≤ x → x < a + n → inWindow s.cfg .dwin x = false) :
    Memory.readBytes t.mem a n = Memory.readBytes s.mem a n :=
  (Memory.readBytes_congr fun x h1 h2 => h.2 x (ha x h1 h2)).symm

theorem sameButD_intOf {s t : State} (hc : s.cfg.Valid) (h : SameButD s t) {w : Window} (hw : w ≠ .dwin) :
    intOf t w = intOf s w := by
  have hk : s.cfg.kmax ≤ 4096 := hc.1.2.2
  rw [intOf, intOf, h.cfg_eq]
  exact congrArg os2ip (sameButD_readBytes h fun x h1 h2 => not_inWindow_of_page hc hw.symm h1 (by omega))

/-- Every operand but D is the same in both states (30_encoding R93). -/
theorem sameButD_operands {s t : State} (hc : s.cfg.Valid) (h : SameButD s t) :
    lengthArg t = lengthArg s ∧ mbufString t = mbufString s ∧ labelString t = labelString s ∧
      drawAnswer t = drawAnswer s ∧ asksDraw t = asksDraw s := by
  have hk : kOf t = kOf s := congrArg byteLen (sameButD_intOf hc h (by decide))
  obtain ⟨m, rfl, _⟩ := h.exists_mem
  have hbuf : ∀ (a n : Nat), 0x4000 ≤ a → Memory.readBytes m a n = Memory.readBytes s.mem a n := fun a n ha =>
    sameButD_readBytes h fun x hx _ => not_inDwin_of_le hc (ha.trans hx)
  have hm : mbufString { s with mem := m } = mbufString s := hbuf _ _ (by decide)
  exact ⟨rfl, hm, hbuf _ _ (by decide), rfl, by rw [asksDraw, hk, hm]; rfl⟩

/-! ### The operations carry the relation on -/

theorem sameButD_clearOutputs {s t : State} (h : SameButD s t) : SameButD (clearOutputs s) (clearOutputs t) := by
  obtain ⟨m, rfl, hm⟩ := h.exists_mem
  refine ⟨rfl, fun a ha => ?_⟩
  rw [read_clearOutputs, read_clearOutputs, hm a ha]

/-- The same string written at the same place in both memories. -/
theorem sameButD_writeBytes {s t : State} (h : SameButD s t) (a : Nat) (bs : Octets) :
    SameButD { s with mem := Memory.writeBytes s.mem a bs } { t with mem := Memory.writeBytes t.mem a bs } := by
  obtain ⟨m, rfl, hm⟩ := h.exists_mem
  refine ⟨rfl, fun x hx => ?_⟩
  rw [Memory.read_writeBytes, Memory.read_writeBytes, hm x hx]

theorem sameButD_putString {s t : State} (h : SameButD s t) (xs : Octets) : SameButD (putString s xs) (putString t xs) := by
  have hmem := (sameButD_writeBytes h (windowBase .obuf) xs).2
  obtain ⟨m, rfl, _⟩ := h.exists_mem
  exact ⟨rfl, hmem⟩

theorem sameButD_finish {s t : State} (h : SameButD s t) (code : BitVec 4) : SameButD (finish s code) (finish t code) := by
  obtain ⟨m, rfl, hm⟩ := h.exists_mem
  exact ⟨rfl, hm⟩

theorem sameButD_dropEvent {s t : State} (h : SameButD s t) : SameButD (dropEvent s) (dropEvent t) := by
  obtain ⟨m, rfl, hm⟩ := h.exists_mem
  exact ⟨rfl, hm⟩

theorem sameButD_record {s t : State} (h : SameButD s t) (a : Answer) : SameButD (record s a) (record t a) := by
  obtain ⟨m, rfl, hm⟩ := h.exists_mem
  exact ⟨rfl, hm⟩

theorem sameButD_afterDraw {s t : State} (hc : s.cfg.Valid) (h : SameButD s t) : SameButD (afterDraw s) (afterDraw t) := by
  obtain ⟨-, -, -, -, hask⟩ := sameButD_operands hc h
  obtain ⟨m, rfl, hm⟩ := h.exists_mem
  rw [afterDraw, afterDraw, hask]
  split
  · exact ⟨rfl, hm⟩
  · exact h

theorem sameButD_completeString {s t : State} (h : SameButD s t) (r : Except CoreError Octets) :
    SameButD (completeString s r) (completeString t r) := by
  cases r with
  | error e => exact sameButD_finish (sameButD_clearOutputs h) _
  | ok xs => exact sameButD_finish (sameButD_putString (sameButD_clearOutputs h) xs) _

theorem sameButD_completeInt {s t : State} (h : SameButD s t) (r : Except CoreError Nat) :
    SameButD (completeInt s r) (completeInt t r) := by
  have hclear := sameButD_clearOutputs h
  cases r with
  | error e => exact sameButD_finish hclear _
  | ok v =>
    rw [completeInt, completeInt, h.cfg_eq]
    cases i2osp v s.cfg.kmax with
    | error e => exact sameButD_finish hclear _
    | ok xs => exact sameButD_finish (sameButD_writeBytes hclear _ xs) _

/-! ### The commands that do not read D -/

theorem exec_sameButD {s t s' t' : State} {i : Instr} (hc : s.cfg.Valid) (h : SameButD s t)
    (hi : ¬(i = .rsadp ∨ i = .rsasp1 ∨ i = .decrypt)) (hs : exec i s = .next s') (ht : exec i t = .next t') :
    SameButD s' t' := by
  obtain ⟨hlen, hmbuf, hlabel, hdraw, -⟩ := sameButD_operands hc h
  have hn : intOf t .nwin = intOf s .nwin := sameButD_intOf hc h (by decide)
  have he : intOf t .ewin = intOf s .ewin := sameButD_intOf hc h (by decide)
  have hx : intOf t .xwin = intOf s .xwin := sameButD_intOf hc h (by decide)
  cases i with
  | nop => cases hs; cases ht; exact sameButD_finish h _
  | i2osp => cases hs; cases ht; rw [h.cfg_eq, hx, hlen]; exact sameButD_completeString h _
  | os2ip => cases hs; cases ht; rw [h.cfg_eq, hmbuf]; exact sameButD_completeInt h _
  | mgf1 => cases hs; cases ht; rw [h.cfg_eq, hmbuf, hlen]; exact sameButD_completeString h _
  | rsaep => cases hs; cases ht; rw [hx, he, hn]; exact sameButD_completeInt h _
  | rsavp1 => cases hs; cases ht; rw [hx, he, hn]; exact sameButD_completeInt h _
  | oaepEnc =>
    cases hs; cases ht
    rw [h.cfg_eq, hn, hmbuf, hlabel, hdraw]
    exact sameButD_completeString (sameButD_afterDraw hc h) _
  | oaepDec => cases hs; cases ht; rw [h.cfg_eq, hn, hmbuf, hlabel]; exact sameButD_completeString h _
  | encrypt =>
    cases hs; cases ht
    rw [h.cfg_eq, hn, he, hmbuf, hlabel, hdraw]
    exact sameButD_completeString (sameButD_afterDraw hc h) _
  | rsadp | rsasp1 | decrypt => simp at hi

/-- The core's move, when it completes none of the three commands that read D. -/
theorem coreMove_sameButD {s t s' t' : State} (hc : s.cfg.Valid) (h : SameButD s t)
    (hD : s.seq = .busy → ¬(decode s.cmdr = some .rsadp ∨ decode s.cmdr = some .rsasp1 ∨ decode s.cmdr = some .decrypt))
    (hs : coreMove s = .next s') (ht : coreMove t = .next t') : SameButD s' t' := by
  rw [coreMove, complete, h.seq_eq, h.cmdr_eq] at ht
  rcases coreMove_cases s with ⟨hq, hm⟩ | ⟨hq, hd, hm⟩ | ⟨i, hq, hd, hm⟩ <;> rw [hm] at hs
  · rw [hq] at ht
    cases hs; cases ht
    exact h
  · rw [hq, hd] at ht
    cases hs; cases ht
    exact sameButD_finish h _
  · rw [hq, hd] at ht
    have hi := hD hq
    rw [hd] at hi
    exact exec_sameButD hc h (by simpa using hi) hs ht

/-! ### The host port -/

/-- A host read answers the same: DWIN reads 0, and K is derived from N (20_memory R62, R70). -/
theorem hostRead_sameButD {s t : State} (hc : s.cfg.Valid) (h : SameButD s t) (a n : Nat) :
    hostRead t a n = hostRead s a n := by
  have hk : kOf t = kOf s := congrArg byteLen (sameButD_intOf hc h (by decide))
  obtain ⟨m, rfl, hm⟩ := h.exists_mem
  have hreg : readRegister { s with mem := m } a = readRegister s a := by
    unfold readRegister
    rw [hk]
    rfl
  have hwin : readWindow { s with mem := m } a n = readWindow s a n := by
    unfold readWindow
    cases hp : windowOfPage (a / 0x1000) with
    | none => rfl
    | some w =>
      have hbase := windowOfPage_some hp
      have hcap := windowCap_le hc w
      simp only
      split
      · rfl
      · split
        · rfl
        · split
          · rfl
          · next hfit hd =>
            rw [sameButD_readBytes h fun x h1 h2 => not_inWindow_of_page hc (Ne.symm hd) (by omega) (by omega)]
  unfold hostRead
  rw [hreg, hwin]

/-- Two answers to a host write: the same response, and states that differ at most in DWIN. -/
def SameAnswer (r r' : Resp × State) : Prop := r.1 = r'.1 ∧ SameButD r.2 r'.2

theorem sameAnswer_refused {s t : State} (h : SameButD s t) : SameAnswer (.err, s) (.err, t) := ⟨rfl, h⟩

/-- A write of the control block: not answered in either state, or answered the same. -/
theorem writeControl_sameButD {s t : State} (h : SameButD s t) (a : Nat) (v : Word) :
    (writeControl s a v = none ∧ writeControl t a v = none) ∨
    ∃ r r', writeControl s a v = some r ∧ writeControl t a v = some r' ∧ SameAnswer r r' := by
  obtain ⟨m, rfl, hm⟩ := h.exists_mem
  unfold writeControl
  split
  · split
    · exact .inr ⟨_, _, rfl, rfl, rfl, rfl, fun _ _ => rfl⟩
    · exact .inr ⟨_, _, rfl, rfl, rfl, rfl, hm⟩
  · split
    · exact .inr ⟨_, _, rfl, rfl, rfl, rfl, hm⟩
    · exact .inr ⟨_, _, rfl, rfl, rfl, rfl, hm⟩
  · split
    · exact .inr ⟨_, _, rfl, rfl, sameAnswer_refused h⟩
    · exact .inr ⟨_, _, rfl, rfl, rfl, rfl, hm⟩
  · exact .inl ⟨rfl, rfl⟩

theorem writeOperand_sameButD {s t : State} (h : SameButD s t) (a : Nat) (v : Word) :
    SameAnswer (writeOperand s a v) (writeOperand t a v) := by
  obtain ⟨m, rfl, hm⟩ := h.exists_mem
  unfold writeOperand
  split
  · exact ⟨rfl, rfl, hm⟩
  · exact ⟨rfl, rfl, hm⟩
  · split
    · exact sameAnswer_refused h
    · exact ⟨rfl, rfl, hm⟩
  · split
    · exact sameAnswer_refused h
    · exact ⟨rfl, rfl, hm⟩
  · exact sameAnswer_refused h

theorem writeWindow_sameButD {s t : State} (h : SameButD s t) (a n : Nat) (v : Word) :
    SameAnswer (writeWindow s a n v) (writeWindow t a n v) := by
  have hwrite := sameButD_writeBytes h a (octetsOf v.toNat n)
  obtain ⟨m, rfl, _⟩ := h.exists_mem
  unfold writeWindow
  split
  · exact sameAnswer_refused h
  · split
    · exact sameAnswer_refused h
    · split
      · exact sameAnswer_refused h
      · split
        · exact sameAnswer_refused h
        · exact ⟨rfl, hwrite⟩

/-- A host write answers the same and carries the relation on, a write of DWIN included. -/
theorem hostWrite_sameButD {s t : State} (h : SameButD s t) (a n : Nat) (v : Word) :
    SameAnswer (hostWrite s a n v) (hostWrite t a n v) := by
  unfold hostWrite
  rw [h.seq_eq]
  split
  · exact sameAnswer_refused h
  · split
    · split
      · exact sameAnswer_refused h
      · rcases writeControl_sameButD h a v with ⟨hs, ht⟩ | ⟨r, r', hs, ht, hr⟩ <;> rw [hs, ht]
        · simp only
          split
          · exact sameAnswer_refused h
          · exact writeOperand_sameButD h a v
        · exact hr
    · exact writeWindow_sameButD h a n v

/-! ### The step -/

/-- An event that is not the core's turn, made in both states. -/
theorem eventStep_sameButD {s t s' t' : State} {e : Event} (hc : s.cfg.Valid) (h : SameButD s t) (he : e ≠ .coreTurn)
    (hs : eventStep s e = .next s') (ht : eventStep t e = .next t') : SameButD s' t' := by
  cases e with
  | hostRead a n =>
    cases hs; cases ht
    rw [readStep, readStep, hostRead_sameButD hc h]
    exact sameButD_record h _
  | hostWrite a n v =>
    cases hs; cases ht
    obtain ⟨hresp, hstate⟩ := hostWrite_sameButD h a n v
    rw [writeStep, writeStep, hresp]
    exact sameButD_record hstate _
  | coreTurn => exact absurd rfl he
  | hardReset =>
    cases hs; cases ht
    obtain ⟨m, rfl, _⟩ := h.exists_mem
    exact ⟨rfl, fun _ _ => rfl⟩

/-- Settles O14: the two runs make the same event, and only the three commands look into DWIN. -/
theorem secretExponentInfluencesNothingElse : Obligations.SecretExponentInfluencesNothingElse := by
  intro s t s' t' hc h hD hs ht
  rw [step, nextStep] at hs ht
  rw [h.env_eq] at ht
  cases hag : s.env.agenda with
  | nil =>
    rw [hag] at hs ht
    exact coreMove_sameButD hc h (fun hb hd => hD ⟨hb, .inl hag, hd⟩) hs ht
  | cons e es =>
    rw [hag] at hs ht
    have hdrop := sameButD_dropEvent h
    by_cases he : e = .coreTurn
    · subst he
      exact coreMove_sameButD (s := dropEvent s) hc hdrop (fun hb hd => hD ⟨hb, .inr ⟨es, hag⟩, hd⟩) hs ht
    · exact eventStep_sameButD (s := dropEvent s) hc hdrop he hs ht

end Sys2Proof.Machine

/-! ## Proofs for 20_memory -/

namespace Sys2Proof.Machine

/-! ### What a host read can answer (20_memory R62) -/

theorem readRegister_cases (s : State) (a : Nat) : readRegister s a = refusedRead ∨ ∃ d, readRegister s a = (.okay, d) := by
  unfold readRegister
  split
  case h_13 => exact .inl rfl
  all_goals exact .inr ⟨_, rfl⟩

theorem readWindow_cases (s : State) (a n : Nat) : readWindow s a n = refusedRead ∨ ∃ d, readWindow s a n = (.okay, d) := by
  unfold readWindow
  split
  · exact .inl rfl
  · split
    · exact .inl rfl
    · split
      · exact .inl rfl
      · split
        · exact .inr ⟨_, rfl⟩
        · exact .inr ⟨_, rfl⟩

/-- A host read is refused with data 0, or answered OKAY (20_memory R60). -/
theorem hostRead_cases (s : State) (a n : Nat) : hostRead s a n = refusedRead ∨ ∃ d, hostRead s a n = (.okay, d) := by
  unfold hostRead
  split
  · exact .inl rfl
  · split
    · split
      · exact .inl rfl
      · split
        · exact .inl rfl
        · exact readRegister_cases s a
    · exact readWindow_cases s a n

/-- Settles O50: the step only records the answer, and a refusal is `refusedRead`. -/
theorem hostReadsChangeNothing : Obligations.HostReadsChangeNothing := by
  intro s a n
  refine ⟨readStep s a n, (hostRead s a n).1, (hostRead s a n).2, rfl, rfl, rfl, rfl, fun herr => ?_⟩
  rcases hostRead_cases s a n with h | ⟨d, h⟩
  · rw [h]
    rfl
  · rw [h] at herr
    cases herr

/-! ### The lock while BUSY (20_memory R66, R67) -/

/-- While BUSY no operand is read. -/
theorem hostRead_busy {s : State} (hb : s.seq = .busy) {a : Nat} (ha : 0x0020 ≤ a) (n : Nat) :
    hostRead s a n = refusedRead := by
  unfold hostRead
  split
  · rfl
  · split
    · split
      · rfl
      · rw [if_pos ⟨ha, hb⟩]
    · unfold readWindow
      split
      · rfl
      · rw [if_pos hb]

/-- The control block ends below `0x0020` (20_memory R61). -/
theorem writeControl_of_ge (s : State) {a : Nat} (ha : 0x0020 ≤ a) (v : Word) : writeControl s a v = none := by
  unfold writeControl
  split
  case h_4 => rfl
  all_goals omega

/-- While BUSY no operand is written. -/
theorem hostWrite_busy {s : State} (hb : s.seq = .busy) {a : Nat} (ha : 0x0020 ≤ a) (n : Nat) (v : Word) :
    hostWrite s a n v = (.err, s) := by
  rw [hostWrite, writeControl_of_ge s ha]
  split
  · rfl
  · split
    · split
      · rfl
      · exact if_pos ⟨ha, hb⟩
    · unfold writeWindow
      split
      · rfl
      · rw [if_pos hb]

/-- While BUSY no command is taken, whatever the size of the write. -/
theorem hostWrite_cmd_busy {s : State} (hb : s.seq = .busy) (n : Nat) (v : Word) : hostWrite s 0x0014 n v = (.err, s) := by
  have hctl : writeControl s 0x0014 v = some (.err, s) := if_pos hb
  rw [hostWrite, hctl]
  split
  · rfl
  · rw [if_pos (by omega)]
    split
    · rfl
    · rfl

/-- A write of CTRL is taken in every state, the soft reset included. -/
theorem hostWrite_ctrl_okay (s : State) (v : Word) : (hostWrite s 0x000C 4 v).1 = .okay := by
  cases hv : v.getLsbD 1 with
  | true => rw [hostWrite_softReset hv]
  | false => rw [(ctrlRegisterLayout s).2 v hv]

/-- Settles O52: the lock covers every address from `0x0020` on, and of the control block only CMD. -/
theorem busyLocksOutOperandsAndCmd : Obligations.BusyLocksOutOperandsAndCmd := by
  intro s hb
  refine ⟨fun a n v ha => ⟨hostRead_busy hb ha n, hostWrite_busy hb ha n v⟩, hostWrite_cmd_busy hb, fun a ha => ?_,
    fun v => ⟨hostWrite_ctrl_okay s v, ?_⟩⟩
  · have hctl : a < 0x0020 ∧ a % 4 = 0 ∧ (readRegister s a).1 = .okay := by
      simp only [List.mem_cons, List.not_mem_nil, or_false] at ha
      rcases ha with rfl | rfl | rfl | rfl | rfl | rfl <;> exact ⟨by omega, by omega, rfl⟩
    obtain ⟨hlt, h4, hokay⟩ := hctl
    rw [hostRead_register (by omega) h4 (.inl hlt), hokay]
  · rw [(statusRegisterLayout s).2 v]

/-! ### The length registers (20_memory R68) -/

/-- Settles O53, by the branch of each register: the range of a length is checked in every state, the lock only while BUSY. -/
theorem lengthRegistersRefuseOverCapacity : Obligations.LengthRegistersRefuseOverCapacity := by
  intro s v
  refine ⟨fun hv => ?_, fun hv => ?_, fun hi hv => ?_, fun hi hv => ?_, fun hi => ⟨?_, ?_, ?_⟩⟩
  · exact hostWrite_readOnly (by omega) (by omega) rfl (if_pos hv)
  · exact hostWrite_readOnly (by omega) (by omega) rfl (if_pos hv)
  · rw [hostWrite_operand (by omega) (by omega) rfl hi]
    exact if_neg (by omega)
  · rw [hostWrite_operand (by omega) (by omega) rfl hi]
    exact if_neg (by omega)
  · exact hostRead_register (by omega) (by omega) (.inr hi)
  · exact hostRead_register (by omega) (by omega) (.inr hi)
  · exact hostRead_register (by omega) (by omega) (.inr hi)

/-! ### The windows at the host port -/

/-- An access of `n` octets at address `a` that window `w` answers: IDLE, of a legal size, aligned, inside the capacity (20_memory R62,
R63). -/
structure WindowAccess (s : State) (w : Window) (a n : Nat) : Prop where
  idle : s.seq = .idle
  size : n = 1 ∨ n = 4
  aligned : a % n = 0
  page : windowOfPage (a / 0x1000) = some w
  fits : a % 0x1000 + n ≤ windowCap s.cfg w

/-- The windows' pages are the pages 1 to 8 (20_memory R61). -/
theorem WindowAccess.range {s : State} {w : Window} {a n : Nat} (h : WindowAccess s w a n) : 0x1000 ≤ a ∧ a ≤ 0xFFFF := by
  have hpage := windowOfPage_some h.page
  obtain ⟨_, hlo, hhi, _⟩ := windowBase_page w
  omega

/-- An access that stays inside a window is answered by it: no window is longer than its page. -/
theorem windowAccess_of_offset {s : State} {w : Window} {j n : Nat} (hc : s.cfg.Valid) (hi : s.seq = .idle)
    (hn : n = 1 ∨ n = 4) (hj : j % n = 0) (hfit : j + n ≤ windowCap s.cfg w) : WindowAccess s w (windowBase w + j) n := by
  obtain ⟨hbase, _, _, hpage⟩ := windowBase_page w
  have hcap := windowCap_le hc w
  refine ⟨hi, hn, ?_, ?_, ?_⟩
  · rcases hn with rfl | rfl <;> omega
  · rw [show (windowBase w + j) / 0x1000 = windowBase w / 0x1000 by rcases hn with rfl | rfl <;> omega, hpage]
  · rwa [show (windowBase w + j) % 0x1000 = j by rcases hn with rfl | rfl <;> omega]

/-- A window's answer to a read: the octets as one big-endian number, but for DWIN, which reads zero (20_memory R65, R70). -/
theorem hostRead_window {s : State} {w : Window} {a n : Nat} (h : WindowAccess s w a n) :
    hostRead s a n = (.okay, if w = .dwin then 0#32 else BitVec.ofNat 32 (os2ip (Memory.readBytes s.mem a n))) := by
  obtain ⟨hlo, hhi⟩ := h.range
  have hseq : s.seq ≠ .busy := by simp [h.idle]
  have hfits := h.fits
  rw [hostRead, if_neg (by simp [h.size, h.aligned, hhi]), if_neg (by omega), readWindow, h.page]
  simp only
  rw [if_neg hseq, if_neg (by omega)]
  split
  · rfl
  · rfl

/-- A writable window's answer to a write: it stores the octets of the value (20_memory R63). -/
theorem hostWrite_window {s : State} {w : Window} {a n : Nat} (h : WindowAccess s w a n) (hy : w ≠ .ywin) (ho : w ≠ .obuf)
    (v : Word) : hostWrite s a n v = (.okay, { s with mem := Memory.writeBytes s.mem a (octetsOf v.toNat n) }) := by
  obtain ⟨hlo, hhi⟩ := h.range
  have hseq : s.seq ≠ .busy := by simp [h.idle]
  have hfits := h.fits
  rw [hostWrite, if_neg (by simp [h.size, h.aligned, hhi]), if_neg (by omega), writeWindow, h.page]
  simp only
  rw [if_neg hseq, if_neg (by omega), if_neg (by simp [hy, ho])]

/-- Everything a write that a window took can have done: it was an access to a writable window, and its octets are stored. -/
theorem hostWrite_window_okay {s t : State} {a n : Nat} {v : Word} (ha : 0x1000 ≤ a) (h : hostWrite s a n v = (.okay, t)) :
    ∃ w, w ≠ .ywin ∧ w ≠ .obuf ∧ WindowAccess s w a n ∧
      t = { s with mem := Memory.writeBytes s.mem a (octetsOf v.toNat n) } := by
  unfold hostWrite at h
  split at h
  · cases h
  · next hlegal =>
    obtain ⟨hsize, haligned, _⟩ : (n = 1 ∨ n = 4) ∧ a % n = 0 ∧ a ≤ 0xFFFF := by omega
    rw [if_neg (by omega)] at h
    unfold writeWindow at h
    split at h
    · cases h
    · next w hpage =>
      split_ifs at h with hseq hover hro <;> cases h
      have hidle : s.seq = .idle := by
        cases hs : s.seq with
        | idle => rfl
        | busy => exact absurd hs hseq
      exact ⟨w, fun e => hro (.inl e), fun e => hro (.inr e), ⟨hidle, hsize, haligned, hpage, by omega⟩, rfl⟩

/-- Settles O54: DWIN is the window whose read discards the octets, and CMD has a constant for its value. -/
theorem dwinAndCmdReadZero : Obligations.DwinAndCmdReadZero := by
  refine ⟨fun s j n hc hi hn hj hfit => ?_, fun s => ?_⟩
  · exact hostRead_window (w := .dwin) (windowAccess_of_offset hc hi hn hj hfit)
  · exact hostRead_register (by omega) (by omega) (.inl (by omega))

/-! ### The octets of a window as a number (20_memory R65) -/

theorem os2ip_readBytes_one (m : List Host.Cell) (a : Nat) : os2ip (Memory.readBytes m a 1) = (Memory.read m a).toNat := by
  simp [Memory.readBytes, os2ip_cons, os2ip_nil]

theorem os2ip_readBytes_four (m : List Host.Cell) (a : Nat) :
    os2ip (Memory.readBytes m a 4) = (Memory.read m a).toNat * 2 ^ 24 + (Memory.read m (a + 1)).toNat * 2 ^ 16 +
      (Memory.read m (a + 2)).toNat * 2 ^ 8 + (Memory.read m (a + 3)).toNat := by
  simp only [Memory.readBytes, os2ip_cons, os2ip_nil, List.length_cons, List.length_nil, Nat.add_assoc, Nat.reduceAdd]
  omega

/-- The octets of one access fit a register word. -/
theorem readData_toNat (m : List Host.Cell) (a : Nat) {n : Nat} (hn : n ≤ 4) :
    (BitVec.ofNat 32 (os2ip (Memory.readBytes m a n))).toNat = os2ip (Memory.readBytes m a n) := by
  have hlt : os2ip (Memory.readBytes m a n) < 256 ^ n := by simpa using os2ip_lt (Memory.readBytes m a n)
  have hle : 256 ^ n ≤ 2 ^ 32 := (Nat.pow_le_pow_right (by omega) hn).trans_eq (by decide : 256 ^ 4 = 2 ^ 32)
  rw [BitVec.toNat_ofNat, Nat.mod_eq_of_lt (hlt.trans_le hle)]

/-- Octet `i` of a value written in `n` octets lies `i` addresses up. -/
theorem Memory.read_writeBytes_octetsOf (m : List Host.Cell) (a x : Nat) {n i : Nat} (hi : i < n) :
    Memory.read (Memory.writeBytes m a (octetsOf x n)) (a + i) = BitVec.ofNat 8 (x / 256 ^ (n - 1 - i)) := by
  have hl : i < (octetsOf x n).length := by rwa [octetsOf_length]
  rw [Memory.read_writeBytes, if_pos (by omega), Nat.add_sub_cancel_left, List.getD_eq_getElem?_getD,
    List.getElem?_eq_getElem hl, Option.getD_some, octetsOf_getElem]

/-- A value of `n` octets read from where it was written. -/
theorem os2ip_readBytes_writeBytes_octetsOf (m : List Host.Cell) (a x n : Nat) :
    os2ip (Memory.readBytes (Memory.writeBytes m a (octetsOf x n)) a n) = x % 256 ^ n := by
  have hback := Memory.readBytes_writeBytes m a (octetsOf x n)
  rw [octetsOf_length] at hback
  rw [hback, os2ip_octetsOf]

/-- Which window answers does not depend on what the cells hold. -/
theorem WindowAccess.withMem {s : State} {w : Window} {a n : Nat} (h : WindowAccess s w a n) (m : List Host.Cell) :
    WindowAccess { s with mem := m } w a n := { h with }

/-- Each octet of a 4-octet access can be accessed alone. -/
theorem WindowAccess.lane {s : State} {w : Window} {a j : Nat} (h : WindowAccess s w a 4) (hj : j < 4) :
    WindowAccess s w (a + j) 1 := by
  have hal := h.aligned
  have hfits := h.fits
  refine ⟨h.idle, .inl rfl, Nat.mod_one _, ?_, by omega⟩
  rw [show (a + j) / 0x1000 = a / 0x1000 by omega, h.page]

/-- A window but DWIN, told by its page. -/
theorem WindowAccess.ne_dwin {s : State} {w : Window} {a n : Nat} (h : WindowAccess s w a n) (hd : a / 0x1000 ≠ 3) :
    w ≠ .dwin := by
  rintro rfl
  have hpage : a / 0x1000 * 0x1000 = 0x3000 := windowOfPage_some h.page
  omega

/-- A read of what a write to a window but DWIN stored gives the value, cut to the octets stored. -/
theorem hostRead_afterWrite {s t : State} {a n : Nat} {v : Word} (ha : 0x1000 ≤ a) (hd : a / 0x1000 ≠ 3)
    (h : hostWrite s a n v = (.okay, t)) : hostRead t a n = (.okay, BitVec.ofNat 32 (v.toNat % 256 ^ n)) := by
  obtain ⟨w, _, _, hacc, rfl⟩ := hostWrite_window_okay ha h
  rw [hostRead_window (hacc.withMem _), if_neg (hacc.ne_dwin hd), os2ip_readBytes_writeBytes_octetsOf]

/-- A read of octet `j` of a 4-octet write to a window but DWIN gives its lane of the value (20_memory R65). -/
theorem hostRead_lane_afterWrite {s t : State} {a j : Nat} {v : Word} (ha : 0x1000 ≤ a) (hd : a / 0x1000 ≠ 3)
    (h : hostWrite s a 4 v = (.okay, t)) (hj : j < 4) :
    hostRead t (a + j) 1 = (.okay, BitVec.ofNat 32 (v.toNat / 256 ^ (3 - j) % 256)) := by
  obtain ⟨w, _, _, hacc, rfl⟩ := hostWrite_window_okay ha h
  rw [hostRead_window ((hacc.withMem _).lane hj), if_neg (hacc.ne_dwin hd), os2ip_readBytes_one,
    Memory.read_writeBytes_octetsOf _ _ _ hj, BitVec.toNat_ofNat]

/-- Settles O55: a read is the big-endian number of its octets, and each octet of a write is read from its lane. -/
theorem windowAccessesAreBigEndian : Obligations.WindowAccessesAreBigEndian := by
  refine ⟨fun s w j n hc hi hd hn hj hfit => ?_, fun s t a v ha hd h => ⟨?_, fun j hj => hostRead_lane_afterWrite ha hd h hj⟩,
    fun s t a v ha hd h => hostRead_afterWrite ha hd h⟩
  · have hread := hostRead_window (windowAccess_of_offset hc hi hn hj hfit)
    rw [if_neg hd] at hread
    refine ⟨_, hread, ?_, ?_⟩
    · rintro rfl
      rw [readData_toNat _ _ (by omega), os2ip_readBytes_one]
    · rintro rfl
      rw [readData_toNat _ _ (by omega), os2ip_readBytes_four]
  · rw [hostRead_afterWrite ha hd h, Nat.mod_eq_of_lt (show v.toNat < 256 ^ 4 from v.isLt), BitVec.ofNat_toNat, BitVec.setWidth_eq]

/-! ### The number an integer window holds after a write (10_state R22, 20_memory R63) -/

/-- A string read from where nothing was written. -/
theorem Memory.readBytes_writeBytes_disjoint (m : List Host.Cell) {a b n : Nat} {bs : Octets}
    (h : a + n ≤ b ∨ b + bs.length ≤ a) : Memory.readBytes (Memory.writeBytes m b bs) a n = Memory.readBytes m a n :=
  Memory.readBytes_congr fun x h1 h2 => by rw [Memory.read_writeBytes, if_neg (by omega)]

/-- The number a string of `k` octets holds, by the pieces before, at and after `l` octets from its octet `j` on. -/
theorem os2ip_readBytes_split (m : List Host.Cell) (b j l r : Nat) :
    os2ip (Memory.readBytes m b (j + l + r)) =
      os2ip (Memory.readBytes m b j) * 256 ^ l * 256 ^ r + os2ip (Memory.readBytes m (b + j) l) * 256 ^ r +
        os2ip (Memory.readBytes m (b + (j + l)) r) := by
  rw [Memory.readBytes_append, Memory.readBytes_append, os2ip_append, os2ip_append, Memory.readBytes_length,
    Memory.readBytes_length, Nat.add_mul]

/-- Writing octets inside a string changes its number by exactly those octets, at their place. -/
theorem os2ip_readBytes_writeBytes (m : List Host.Cell) (b j : Nat) {k : Nat} {bs : Octets} (h : j + bs.length ≤ k) :
    os2ip (Memory.readBytes (Memory.writeBytes m (b + j) bs) b k) +
        os2ip (Memory.readBytes m (b + j) bs.length) * 256 ^ (k - j - bs.length) =
      os2ip (Memory.readBytes m b k) + os2ip bs * 256 ^ (k - j - bs.length) := by
  obtain ⟨r, rfl⟩ := Nat.exists_eq_add_of_le h
  rw [show j + bs.length + r - j - bs.length = r by omega, os2ip_readBytes_split, os2ip_readBytes_split m,
    Memory.readBytes_writeBytes_disjoint m (.inl (Nat.le_refl _)), Memory.readBytes_writeBytes,
    Memory.readBytes_writeBytes_disjoint m (.inr (by omega))]
  omega

/-- An integer window's number after `bs` was written at its octet `j`. -/
theorem intOf_writeBytes (s : State) (w : Window) {j : Nat} {bs : Octets} (h : j + bs.length ≤ s.cfg.kmax) :
    intOf { s with mem := Memory.writeBytes s.mem (windowBase w + j) bs } w +
        os2ip (Memory.readBytes s.mem (windowBase w + j) bs.length) * 256 ^ (s.cfg.kmax - j - bs.length) =
      intOf s w + os2ip bs * 256 ^ (s.cfg.kmax - j - bs.length) :=
  os2ip_readBytes_writeBytes s.mem (windowBase w) j h

/-- YWIN and OBUF are read-only at the host port, in every state (20_memory R69). -/
theorem hostWrite_readOnlyWindow (s : State) {a : Nat} (ha : a / 0x1000 = 5 ∨ a / 0x1000 = 8) (n : Nat) (v : Word) :
    hostWrite s a n v = (.err, s) := by
  rcases hostWrite_cases s a n v with h | ⟨t, h, _⟩
  · exact h
  · obtain ⟨w, hy, ho, hacc, _⟩ := hostWrite_window_okay (by omega) h
    have hpage := hacc.page
    rcases ha with ha | ha <;> rw [ha] at hpage <;> cases hpage
    · exact absurd rfl hy
    · exact absurd rfl ho

/-- Settles O56: an allowed write stores `octetsOf` of its value, and storing octets changes only their own addresses. -/
theorem windowWritesStayInPlace : Obligations.WindowWritesStayInPlace := by
  refine ⟨fun s w j n v hc hi hy ho hn hj hfit => ?_, fun s t a n v ha h => ?_,
    fun s a n v ha => hostWrite_readOnlyWindow s ha n v⟩
  · refine ⟨_, hostWrite_window (windowAccess_of_offset hc hi hn hj hfit) hy ho v, fun i hlt => ?_, fun hint => ?_⟩
    · rw [Memory.read_writeBytes_octetsOf _ _ _ hlt, BitVec.toNat_ofNat]
    · have hcap : windowCap s.cfg w = s.cfg.kmax := by rcases hint with rfl | rfl | rfl | rfl <;> rfl
      have hnum := intOf_writeBytes s w (j := j) (bs := octetsOf v.toNat n) (by rwa [octetsOf_length, ← hcap])
      rwa [octetsOf_length, os2ip_octetsOf] at hnum
  · obtain ⟨w, _, _, _, rfl⟩ := hostWrite_window_okay ha h
    refine ⟨fun x hx => ?_, rfl⟩
    rw [Memory.read_writeBytes, if_neg (by rwa [octetsOf_length])]

end Sys2Proof.Machine

/-! ## Decoding and encoding command words (30_encoding R90 to R92) -/

namespace Sys2Proof

/-- Every command has the codec facts of its `Laws.Codec` lemma. -/
theorem codecStatement : ∀ i : Instr, Laws.Codec.Statement i
  | .nop => Laws.Codec.nop
  | .i2osp => Laws.Codec.i2osp
  | .os2ip => Laws.Codec.os2ip
  | .mgf1 => Laws.Codec.mgf1
  | .rsaep => Laws.Codec.rsaep
  | .rsadp => Laws.Codec.rsadp
  | .rsasp1 => Laws.Codec.rsasp1
  | .rsavp1 => Laws.Codec.rsavp1
  | .oaepEnc => Laws.Codec.oaepEnc
  | .oaepDec => Laws.Codec.oaepDec
  | .encrypt => Laws.Codec.encrypt
  | .decrypt => Laws.Codec.decrypt

@[simp] theorem decode_encode (i : Instr) : decode (encode i) = some i := (codecStatement i).2.2

/-- The reserved bits of a command's word add nothing to its opcode (30_encoding R92). -/
@[simp] theorem encode_toNat (i : Instr) : (encode i).toNat = (opcodeOf i).toNat := by
  rw [encode, BitVec.toNat_append]
  simp

theorem decode_eq_some_iff {w : Word} {i : Instr} :
    decode w = some i ↔ w.toNat / 256 = 0 ∧ decodeOpc (opcField w) = some i := by
  simp [decode, (wordFields_toNat w).1]

theorem decode_eq_none_iff {w : Word} :
    decode w = none ↔ w.toNat / 256 ≠ 0 ∨ decodeOpc (opcField w) = none := by
  simp [decode, (wordFields_toNat w).1, imp_iff_not_or]

/-- The opcodes that select no command (30_encoding R92, R95). -/
theorem decodeOpc_eq_none_iff {o : Byte} : decodeOpc o = none ↔
    o.toNat ∉ [0x00, 0x01, 0x02, 0x03, 0x10, 0x11, 0x12, 0x13, 0x20, 0x21, 0x30, 0x31] := by
  simp [decodeOpc, ite_eq_iff, ← BitVec.toNat_inj]

/-- A legal word is its command's opcode, with no bit above it (30_encoding R91). -/
theorem toNat_of_decode {w : Word} {i : Instr} (h : decode w = some i) : w.toNat = (opcodeOf i).toNat := by
  obtain ⟨hrsv, hopc⟩ := decode_eq_some_iff.1 h
  have hlow : (opcField w).toNat = w.toNat % 256 := (wordFields_toNat w).2
  rw [← decodeOpc_some hopc, hlow]
  omega

namespace Machine

/-- Settles O5: forwards the two words are one number, backwards a command's word decodes to it. -/
theorem decodeEncodeAgree : Obligations.DecodeEncodeAgree := by
  intro i w
  constructor
  · intro h
    exact BitVec.eq_of_toNat_eq ((toNat_of_decode h).trans (encode_toNat i).symm)
  · rintro rfl
    exact decode_encode i

/-- Settles O3, by the two fields of the word. -/
theorem decodeIsTotalAndExact : Obligations.DecodeIsTotalAndExact := by
  refine ⟨fun w => ?_, fun _ _ => toNat_of_decode⟩
  rw [decode_eq_none_iff, decodeOpc_eq_none_iff, (wordFields_toNat w).2]

/-- Settles O4: each word of the table is its command's `encode`. -/
theorem twelveWordsDecode : Obligations.TwelveWordsDecode :=
  ⟨decode_encode .nop, decode_encode .i2osp, decode_encode .os2ip, decode_encode .mgf1, decode_encode .rsaep,
    decode_encode .rsadp, decode_encode .rsasp1, decode_encode .rsavp1, decode_encode .oaepEnc, decode_encode .oaepDec,
    decode_encode .encrypt, decode_encode .decrypt⟩

end Machine

end Sys2Proof

/-! ## Proofs for 40_codec -/

namespace Sys2Proof.Machine

/-! ### The two functions (40_codec R110, R111, R114) -/

/-- One octet of `octetsOf`, read with a default. -/
theorem octetsOf_getD {n i : Nat} (x : Nat) (b : Byte) (hi : i < n) :
    (octetsOf x n).getD i b = BitVec.ofNat 8 (x / 256 ^ (n - 1 - i)) := by
  have hl : i < (octetsOf x n).length := by rwa [octetsOf_length]
  rw [List.getD_eq_getElem _ _ hl, octetsOf_getElem]

/-- Settles O15: a value that fits gives `octetsOf`, whose octets are the digits. -/
theorem i2ospMatchesItsFormula : Obligations.I2ospMatchesItsFormula := by
  intro x len
  refine ⟨i2osp_of_ge, fun hx => ⟨octetsOf x len, i2osp_of_lt hx, octetsOf_length x len, fun i hi => ?_⟩⟩
  rw [octetsOf_getD x _ hi, BitVec.toNat_ofNat]

/-- The weighted sum of the octets, by the string's first octet. -/
theorem os2ip_eq_sum (xs : Octets) :
    os2ip xs = ((List.range xs.length).map (fun i => (xs.getD i 0#8).toNat * 256 ^ (xs.length - 1 - i))).sum := by
  induction xs with
  | nil => rfl
  | cons b xs ih =>
    rw [os2ip_cons, ih, List.length_cons, List.range_succ_eq_map, List.map_cons, List.sum_cons, List.map_map]
    refine congrArg (b.toNat * 256 ^ xs.length + List.sum ·) (List.map_congr_left fun i _ => ?_)
    rw [Function.comp_apply, List.getD_cons_succ, show xs.length + 1 - 1 - i.succ = xs.length - 1 - i by omega]

/-- Settles O16, by `os2ip_cons`: an octet stands before its string with its weight. -/
theorem os2ipMatchesItsFormula : Obligations.Os2ipMatchesItsFormula := by
  refine ⟨os2ip_nil, fun xs => ⟨os2ip_eq_sum xs, ?_, os2ip_lt xs⟩⟩
  rw [os2ip_cons, BitVec.toNat_ofNat, Nat.zero_mod, Nat.zero_mul, Nat.zero_add]

/-- Settles O17: `octetsOf` and `os2ip` undo each other, and a string's value fits its length. -/
theorem codecFunctionsAreInverse : Obligations.CodecFunctionsAreInverse := by
  refine ⟨fun x len hx => ⟨octetsOf x len, i2osp_of_lt hx, os2ip_octetsOf_of_lt hx⟩, fun xs => ?_⟩
  rw [i2osp_of_lt (os2ip_lt xs), octetsOf_os2ip]

/-! ### What a data command leaves when it succeeds (44_control R184, R185) -/

/-- An octet of an output window beyond the result written to either reads zero. -/
theorem read_result_eq_zero {s : State} (hc : s.cfg.Valid) {v w : Window} (hv : v = .obuf ∨ v = .ywin)
    (hw : w = .obuf ∨ w = .ywin) {xs : Octets} (hl : xs.length ≤ windowCap s.cfg w) {a : Nat}
    (ha : inWindow s.cfg v a = true) (hbeyond : v = w → windowBase w + xs.length ≤ a) :
    Memory.read (putWindow (clearOutputs s) w xs).mem a = 0x00#8 := by
  rw [read_putWindow_clearOutputs s hw hl]
  split
  · next hin =>
    have hrest := hbeyond (inWindow_unique hc ha hin)
    rw [List.getD_eq_default _ _ (by omega)]
  · rw [if_pos (by rcases hv with rfl | rfl <;> simp [ha])]

/-- A string that fits OBUF, as a data command's result. -/
theorem stringResult_completeString {s : State} (hc : s.cfg.Valid) {xs : Octets} (hl : xs.length ≤ s.cfg.bmax) :
    StringResult (completeString s (.ok xs)) xs := by
  have holen : (BitVec.ofNat 32 xs.length).toNat = xs.length := by
    have hcap := windowCap_le hc .obuf
    rw [BitVec.toNat_ofNat, Nat.mod_eq_of_lt (by simp only [windowCap] at hcap; omega)]
  refine ⟨⟨rfl, rfl, rfl, rfl⟩, holen, ?_, fun a ha hbeyond => ?_, fun a ha => ?_⟩
  · change windowPart (putWindow (clearOutputs s) .obuf xs) .obuf (BitVec.ofNat 32 xs.length).toNat = xs
    rw [holen, windowPart_putWindow]
  · exact read_result_eq_zero hc (.inl rfl) (.inl rfl) hl ha fun _ => hbeyond
  · exact read_result_eq_zero hc (.inr rfl) (.inl rfl) hl ha (by simp)

/-- A number that fits YWIN, as a data command's result. -/
theorem intResult_completeInt {s : State} (hc : s.cfg.Valid) {v : Nat} (hv : v < 256 ^ s.cfg.kmax) :
    IntResult (completeInt s (.ok v)) v := by
  have hl : (octetsOf v s.cfg.kmax).length = s.cfg.kmax := octetsOf_length _ _
  have hend : completeInt s (.ok v) = finish (putWindow (clearOutputs s) .ywin (octetsOf v s.cfg.kmax)) 0#4 := by
    rw [completeInt, i2osp_of_lt hv]
  rw [hend]
  refine ⟨⟨rfl, rfl, rfl, rfl⟩, ?_, rfl, fun a ha => ?_⟩
  · have hback := windowPart_putWindow (clearOutputs s) .ywin (octetsOf v s.cfg.kmax)
    rw [hl] at hback
    exact (congrArg os2ip hback).trans (os2ip_octetsOf_of_lt hv)
  · exact read_result_eq_zero hc (.inl rfl) (.inr rfl) (Nat.le_of_eq hl) ha (by simp)

/-! ### The two commands (40_codec R112, R113) -/

theorem i2ospResult_of_fits {c : Config} {x n : Nat} (hx : x < 256 ^ n) (hn : n ≤ c.bmax) :
    i2ospResult c x n = .ok (octetsOf x n) := by
  rw [i2ospResult, if_neg (by omega), if_neg (by omega), i2osp_of_lt hx]

theorem os2ipResult_of_lt {c : Config} {xs : Octets} (h : os2ip xs < 256 ^ c.kmax) : os2ipResult c xs = .ok (os2ip xs) := by
  rw [os2ipResult, if_neg (by omega)]

/-- Settles O34: both tests pass, and the octets of X are a string result. -/
theorem i2ospPutsTheOctetsInObuf : Obligations.I2ospPutsTheOctetsInObuf := by
  intro s hc hx hn
  have hexec : exec .i2osp s = .next (completeString s (.ok (octetsOf (intOf s .xwin) (lengthArg s)))) := by
    rw [exec, execI2osp, i2ospResult_of_fits hx hn]
  exact ⟨_, _, hexec, stringResult_completeString hc (by rwa [octetsOf_length]), i2osp_of_lt hx, octetsOf_length _ _,
    os2ip_octetsOf_of_lt hx, exec_keepsOperands hc hexec, completeString_env s _⟩

/-- Settles O35: the capacity test passes, and the value of the string is an integer result. -/
theorem os2ipPutsTheNumberInYwin : Obligations.Os2ipPutsTheNumberInYwin := by
  intro s hc hv
  have hexec : exec .os2ip s = .next (completeInt s (.ok (os2ip (mbufString s)))) := by
    rw [exec, execOs2ip, os2ipResult_of_lt hv]
  exact ⟨_, hexec, intResult_completeInt hc hv, exec_keepsOperands hc hexec, completeInt_env s _⟩

end Sys2Proof.Machine

/-! ## Proofs for 41_mgf1 -/

namespace Sys2Proof.Machine

/-! ### The octets of a mask (41_mgf1 R120, R123) -/

/-- An octet of the accumulator, by the counter block it stands in. -/
theorem mgfBlocks_getD {c : Config} (seed : Octets) {n j : Nat} (d : Byte) (hj : j < n * c.hlen) :
    (mgfBlocks c seed n).getD j d = (mgfBlock c seed (j / c.hlen)).getD (j % c.hlen) d := by
  induction n with
  | zero => omega
  | succ n ih =>
    rw [mgfBlocks]
    by_cases hlt : j < n * c.hlen
    · rw [List.getD_append _ _ _ _ (by rwa [mgfBlocks_length]), ih hlt]
    · have hge : n * c.hlen ≤ j := Nat.le_of_not_lt hlt
      have hdiv : j / c.hlen = n := Nat.div_eq_of_lt_le hge hj
      have hmod : j % c.hlen = j - n * c.hlen := by rw [Nat.mod_eq_sub_div_mul, hdiv]
      rw [List.getD_append_right _ _ _ _ (by rwa [mgfBlocks_length]), mgfBlocks_length, hdiv, hmod]

/-- Beyond its bound MGF fails (41_mgf1 R120). -/
theorem mgf_of_gt {c : Config} {seed : Octets} {n : Nat} (h : 2 ^ 32 * c.hlen < n) : mgf c seed n = .error .maskTooLong := by
  rw [mgf, if_pos h]

theorem mgf_ok_le {c : Config} {seed t : Octets} {n : Nat} (h : mgf c seed n = .ok t) : n ≤ 2 ^ 32 * c.hlen := by
  by_contra hgt
  rw [mgf_of_gt (Nat.lt_of_not_le hgt)] at h
  cases h

/-- An octet of a mask does not depend on the mask's length. -/
theorem mgf_getD {c : Config} (hc : 1 ≤ c.hlen) {seed t : Octets} {n j : Nat} (d : Byte) (h : mgf c seed n = .ok t)
    (hj : j < n) : t.getD j d = (mgfBlock c seed (j / c.hlen)).getD (j % c.hlen) d := by
  rw [mgf_of_le (mgf_ok_le h)] at h
  cases h
  rw [← mgfBlocks_getD seed d (hj.trans_le (le_ceilDiv_mul n hc)), List.getD_eq_getElem?_getD, List.getD_eq_getElem?_getD,
    List.getElem?_take_of_lt hj]

/-- Settles O18: octet `j` stands in the block of counter `j / hLen`, which fits its four octets (R123 (c)). -/
theorem mgfIsTheHashChain : Obligations.MgfIsTheHashChain := by
  intro c seed maskLen hc
  obtain ⟨_, _, _, ⟨hlen, _⟩, _⟩ := hc
  refine ⟨mgf_of_gt, fun hle => ?_⟩
  have hok := mgf_of_le (seed := seed) hle
  refine ⟨_, hok, mgf_length hlen hok, fun j hj => ⟨octetsOf (j / c.hlen) 4, ?_, mgf_getD hlen _ hok hj⟩⟩
  have hctr : j / c.hlen < 2 ^ 32 := Nat.div_lt_of_lt_mul (by rw [Nat.mul_comm]; omega)
  exact i2osp_of_lt hctr

/-- Settles O19: two masks of one seed agree wherever both have an octet. -/
theorem shorterMaskBeginsLongerMask : Obligations.ShorterMaskBeginsLongerMask := by
  intro c seed ta tb a b hc hab ha hb
  obtain ⟨_, _, _, ⟨hlen, _⟩, _⟩ := hc
  have hla := mgf_length hlen ha
  have hlb := mgf_length hlen hb
  refine List.ext_getElem (by rw [List.length_take]; omega) fun j hja hjb => ?_
  have hj : j < a := by omega
  rw [List.getElem_take, ← List.getD_eq_getElem _ 0#8, ← List.getD_eq_getElem _ 0#8, mgf_getD hlen _ ha hj,
    mgf_getD hlen _ hb (by omega)]

/-! ### The command (41_mgf1 R122) -/

/-- The mask lengths the command has room for: MGF's own bound lies beyond every OBUF. -/
theorem mgf1Result_of_fits {c : Config} (hc : c.Valid) (seed : Octets) {n : Nat} (hn : n ≤ c.bmax) :
    ∃ xs, mgf c seed n = .ok xs ∧ xs.length = n ∧ mgf1Result c seed n = .ok xs := by
  obtain ⟨_, ⟨_, _, hb⟩, _, ⟨hlen, _⟩, _⟩ := hc
  obtain ⟨xs, hok, hl⟩ := mgf_small (seed := seed) hlen (show n ≤ 2 ^ 32 by omega)
  exact ⟨xs, hok, hl, by rw [mgf1Result, if_neg (by omega), if_neg (by omega), hok]⟩

/-- Settles O36: the seed's mask fits OBUF and is a string result. -/
theorem mgf1PutsTheMaskInObuf : Obligations.Mgf1PutsTheMaskInObuf := by
  intro s hc hn
  obtain ⟨xs, hok, hl, hres⟩ := mgf1Result_of_fits hc (mbufString s) hn
  have hexec : exec .mgf1 s = .next (completeString s (.ok xs)) := by rw [exec, execMgf1, hres]
  exact ⟨_, xs, hexec, stringResult_completeString hc (by omega), hok, hl, exec_keepsOperands hc hexec, completeString_env s _⟩

end Sys2Proof.Machine

/-! ## Proofs for 42_oaep -/

namespace Sys2Proof.Machine

/-! ### Bounds the parameters give (00_scope R7) -/

theorem one_le_hlen {c : Config} (hc : c.Valid) : 1 ≤ c.hlen := by
  obtain ⟨_, _, _, ⟨hlen, _⟩, _⟩ := hc
  exact hlen

/-- A mask no longer than a modulus or a digest is never too long for MGF (41_mgf1 R124). -/
theorem mgf_ok_of_valid {c : Config} (hc : c.Valid) (seed : Octets) {n : Nat} (hn : n ≤ c.kmax ∨ n ≤ c.hlen) :
    ∃ t, mgf c seed n = .ok t ∧ t.length = n := by
  obtain ⟨⟨_, _, hkmax⟩, _, _, ⟨hlen, hlen'⟩, _⟩ := hc
  exact mgf_small hlen (by omega)

/-- A string no longer than the modulus fits OBUF. -/
theorem le_bmax_of_le_kOf {s : State} (hc : s.cfg.Valid) {n : Nat} (hn : n ≤ kOf s) : n ≤ s.cfg.bmax := by
  obtain ⟨_, ⟨_, hkb, _⟩, _⟩ := hc
  exact (hn.trans (kOf_le s)).trans hkb

/-! ### The encoder, one equation per outcome (42_oaep R131) -/

theorem oaepEncode_of_gt {c : Config} {n : Nat} {m : Octets} (l : Octets) (draw : Option Octets)
    (h : byteLen n < m.length + 2 * c.hlen + 2) : oaepEncode c n m l draw = .error .messageTooLong := by
  simp only [oaepEncode]
  rw [if_neg (by rw [oaepFits_iff]; omega)]

theorem oaepEncode_none {c : Config} {n : Nat} {m : Octets} (l : Octets) (h : m.length + 2 * c.hlen + 2 ≤ byteLen n) :
    oaepEncode c n m l none = .error .randomnessUnavailable := by
  rw [oaepEncode, if_pos (oaepFits_iff.mpr h)]

theorem oaepEncode_some {c : Config} {n : Nat} {m : Octets} (l seed : Octets) (h : m.length + 2 * c.hlen + 2 ≤ byteLen n) :
    oaepEncode c n m l (some seed) = oaepMask c (byteLen n) seed (oaepDB c (byteLen n) m l) := by
  rw [oaepEncode, if_pos (oaepFits_iff.mpr h)]

/-- The label enters only through its hash (42_oaep R132 (f)). -/
theorem oaepEncode_congr_hash {c : Config} {l l' : Octets} (h : hash c l' = hash c l) (n : Nat) (m : Octets)
    (draw : Option Octets) : oaepEncode c n m l' draw = oaepEncode c n m l draw := by
  simp only [oaepEncode, oaepDB, h]

/-- The modulus enters only through its byte length (42_oaep R132 (d)). -/
theorem oaepEncode_congr_byteLen {n n' : Nat} (h : byteLen n' = byteLen n) (c : Config) (m l : Octets)
    (draw : Option Octets) : oaepEncode c n' m l draw = oaepEncode c n m l draw := by
  simp only [oaepEncode, h]

/-! ### The masks (42_oaep R131 steps 6 to 8) -/

/-- The masked seed and the masked data block, cut out of an EM. -/
theorem em_parts {a b : Octets} {h : Nat} (ha : a.length = h) (y : Byte) :
    ((y :: (a ++ b)).drop 1).take h = a ∧ (y :: (a ++ b)).drop (h + 1) = b := by
  subst ha
  simp

/-- An octet of the masked seed, by its place in EM. -/
theorem em_getD_seed {a b : Octets} {h i : Nat} (ha : a.length = h) (y : Byte) (hi : i < h) :
    (y :: (a ++ b)).getD (1 + i) 0x00#8 = a.getD i 0x00#8 := by
  subst ha
  rw [Nat.add_comm, List.getD_cons_succ, List.getD_append _ _ _ _ hi]

/-- An octet of the masked data block, by its place in EM. -/
theorem em_getD_db {a b : Octets} {h : Nat} (ha : a.length = h) (y : Byte) (i : Nat) :
    (y :: (a ++ b)).getD (1 + h + i) 0x00#8 = b.getD i 0x00#8 := by
  subst ha
  rw [Nat.add_assoc, Nat.add_comm, List.getD_cons_succ, List.getD_append_right _ _ _ _ (Nat.le_add_right _ _),
    Nat.add_sub_cancel_left]

/-- Masking succeeds, with masks as long as what they mask (42_oaep R132 (e)). -/
theorem oaepMask_ok_of_valid {c : Config} {k : Nat} (seed db : Octets) (hc : c.Valid) (hk : k ≤ c.kmax) :
    ∃ dbMask seedMask, mgf c seed (k - c.hlen - 1) = .ok dbMask ∧ dbMask.length = k - c.hlen - 1 ∧
      mgf c (xorOctets db dbMask) c.hlen = .ok seedMask ∧ seedMask.length = c.hlen ∧
      oaepMask c k seed db = .ok (0x00#8 :: (xorOctets seed seedMask ++ xorOctets db dbMask)) := by
  obtain ⟨⟨_, _, hkmax⟩, _, _, ⟨hlen, hlen'⟩, _⟩ := hc
  exact oaepMask_ok hlen (by omega) (by omega)

/-- Masking a data block of the right length gives the octets of R131. -/
theorem oaepMask_masked {c : Config} {k : Nat} {seed db : Octets} (hc : c.Valid) (hk : k ≤ c.kmax) (hfit : c.hlen + 1 ≤ k)
    (hs : seed.length = c.hlen) (hd : db.length = k - c.hlen - 1) :
    ∃ em, oaepMask c k seed db = .ok em ∧ Masked c k seed db em := by
  obtain ⟨dbMask, seedMask, hdm, hdml, hsm, hsml, hok⟩ := oaepMask_ok_of_valid seed db hc hk
  have ha : (xorOctets seed seedMask).length = c.hlen := by rw [xorOctets_length, hs, hsml, Nat.min_self]
  refine ⟨_, hok, oaepMask_length (one_le_hlen hc) hs hd hfit hok, rfl, dbMask, seedMask, hdm, ?_, fun i hi => ?_,
    fun i hi => ?_⟩
  · rw [(em_parts ha _).2, hsm]
  · rw [em_getD_seed ha _ hi, xorOctets_getD (by omega) (by omega)]
  · rw [em_getD_db ha, xorOctets_getD (by omega) (by omega)]

/-- An EM is a number of one octet less than the modulus has, since it begins with `0x00` (42_oaep R132 (c)). -/
theorem os2ip_lt_of_masked {c : Config} {k : Nat} {seed db em : Octets} (h : Masked c k seed db em) :
    os2ip em < 256 ^ (k - 1) := by
  obtain ⟨rfl, hy, _⟩ := h
  cases em with
  | nil => simp at hy
  | cons y rest =>
    obtain rfl : y = 0x00#8 := hy
    simpa [os2ip_cons] using os2ip_lt rest

/-- Within the capacity and with a seed the encoding succeeds: it is the message's data block, masked (42_oaep R131). -/
theorem oaepEncode_masked {c : Config} {n : Nat} {m seed : Octets} (l : Octets) (hc : c.Valid) (hk : byteLen n ≤ c.kmax)
    (hs : seed.length = c.hlen) (h : m.length + 2 * c.hlen + 2 ≤ byteLen n) :
    ∃ em, oaepEncode c n m l (some seed) = .ok em ∧ Masked c (byteLen n) seed (oaepDB c (byteLen n) m l) em := by
  rw [oaepEncode_some l seed h]
  exact oaepMask_masked hc hk (by omega) hs (oaepDB_length h)

/-- What an encoding that succeeded was made of. -/
theorem oaepEncode_ok {c : Config} {n : Nat} {m l em : Octets} {draw : Option Octets} (hc : c.Valid) (hk : byteLen n ≤ c.kmax)
    (hs : ∀ seed, draw = some seed → seed.length = c.hlen) (h : oaepEncode c n m l draw = .ok em) :
    m.length + 2 * c.hlen + 2 ≤ byteLen n ∧ ∃ seed, draw = some seed ∧
      Masked c (byteLen n) seed (oaepDB c (byteLen n) m l) em := by
  by_cases hfit : m.length + 2 * c.hlen + 2 ≤ byteLen n
  · cases draw with
    | none =>
      rw [oaepEncode_none l hfit] at h
      cases h
    | some seed =>
      obtain ⟨em', hok, hmask⟩ := oaepEncode_masked l hc hk (hs seed rfl) hfit
      rw [hok] at h
      cases h
      exact ⟨hfit, seed, rfl, hmask⟩
  · rw [oaepEncode_of_gt l draw (by omega)] at h
    cases h

/-- The only errors of an encoding: no call of MGF raises (42_oaep R132 (e)). -/
theorem oaepEncode_error {c : Config} {n : Nat} {m l : Octets} {draw : Option Octets} {e : CoreError} (hc : c.Valid)
    (hk : byteLen n ≤ c.kmax) (hs : ∀ seed, draw = some seed → seed.length = c.hlen)
    (h : oaepEncode c n m l draw = .error e) :
    (e = .messageTooLong ∧ byteLen n < m.length + 2 * c.hlen + 2) ∨ (e = .randomnessUnavailable ∧ draw = none) := by
  by_cases hfit : m.length + 2 * c.hlen + 2 ≤ byteLen n
  · cases draw with
    | none =>
      rw [oaepEncode_none l hfit] at h
      cases h
      exact .inr ⟨rfl, rfl⟩
    | some seed =>
      obtain ⟨em, hok, _⟩ := oaepEncode_masked l hc hk (hs seed rfl) hfit
      rw [hok] at h
      cases h
  · rw [oaepEncode_of_gt l draw (by omega)] at h
    cases h
    exact .inl ⟨rfl, by omega⟩

/-- Settles O25: the cases of the encoder, and an encoding that succeeded is a masked data block. -/
theorem oaepEncodeConsequences : Obligations.OaepEncodeConsequences := by
  intro c n m l draw hc hk hs
  refine ⟨fun hshort => oaepEncode_of_gt l draw (by omega), ⟨fun h => ?_, oaepEncode_of_gt l draw⟩, ?_, ?_, ?_,
    fun em h => ?_, fun n' h => oaepEncode_congr_byteLen h c m l draw, fun e h => ?_,
    fun l' h => oaepEncode_congr_hash h n m draw⟩
  · rcases oaepEncode_error hc hk hs h with ⟨_, hgt⟩ | ⟨he, _⟩
    · exact hgt
    · cases he
  · rintro hfit rfl
    exact oaepEncode_none l hfit
  · rintro seed hfit rfl
    exact oaepEncode_masked l hc hk (hs seed rfl) hfit
  · rintro seed db hfit rfl hd
    exact oaepMask_masked hc hk (by omega) (hs seed rfl) hd
  · obtain ⟨_, seed, _, hmask⟩ := oaepEncode_ok hc hk hs h
    have hlt := os2ip_lt_of_masked hmask
    obtain ⟨hlen, hy, _⟩ := hmask
    exact ⟨hlen, hy, hlt⟩
  · exact (oaepEncode_error hc hk hs h).imp_left And.left

/-! ### The decoder (42_oaep R135, R136) -/

/-- The strict separator: zero octets, one `0x01`, and the message (42_oaep R136). -/
theorem splitSeparator_eq_some_iff {xs m : Octets} : splitSeparator xs = some m ↔ ∃ p, xs = zeros p ++ [0x01#8] ++ m := by
  constructor
  · intro h
    induction xs with
    | nil => cases h
    | cons b xs ih =>
      rw [splitSeparator] at h
      split at h
      · next hb =>
        obtain ⟨p, rfl⟩ := ih h
        exact ⟨p + 1, by rw [hb]; rfl⟩
      · split at h
        · next hb =>
          cases h
          exact ⟨0, by rw [hb]; rfl⟩
        · cases h
  · rintro ⟨p, rfl⟩
    induction p with
    | zero => rfl
    | succ p ih => exact ih

/-- The data block `db` that the decoder finds under the masks of `em` (42_oaep R135 step 4). -/
def Unmasks (c : Config) (k : Nat) (em db : Octets) : Prop :=
  ∃ seedMask dbMask, mgf c (em.drop (c.hlen + 1)) c.hlen = .ok seedMask ∧
    mgf c (xorOctets ((em.drop 1).take c.hlen) seedMask) (k - c.hlen - 1) = .ok dbMask ∧
    db = xorOctets (em.drop (c.hlen + 1)) dbMask

/-- The two checks of a data block: the label's hash, then the separator (42_oaep R135 step 5). -/
theorem paddedBlock_iff {c : Config} {l db m : Octets} :
    (db.take c.hlen = hash c l ∧ splitSeparator (db.drop c.hlen) = some m) ↔
      ∃ p, db = hash c l ++ zeros p ++ [0x01#8] ++ m := by
  rw [splitSeparator_eq_some_iff]
  constructor
  · rintro ⟨hhash, p, hrest⟩
    exact ⟨p, by rw [← List.take_append_drop c.hlen db, hhash, hrest]; simp only [List.append_assoc]⟩
  · rintro ⟨p, rfl⟩
    simp only [List.append_assoc]
    exact ⟨List.take_left' (hash_length c l), p, List.drop_left' (hash_length c l)⟩

/-- The decoder succeeds exactly when every check of 42_oaep R135 passes. -/
theorem oaepDecode_eq_ok_iff {c : Config} {n : Nat} {em l m : Octets} :
    oaepDecode c n em l = .ok m ↔
      em.length = byteLen n ∧ 2 * c.hlen + 2 ≤ byteLen n ∧ em.getD 0 0x00#8 = 0x00#8 ∧
      ∃ db, Unmasks c (byteLen n) em db ∧ ∃ p, db = hash c l ++ zeros p ++ [0x01#8] ++ m := by
  rw [← List.headD_eq_getD]
  constructor
  · intro h
    simp only [oaepDecode] at h
    split at h
    · cases h
    next hlen =>
    split at h
    · cases h
    next seedMask hsm =>
    split at h
    · cases h
    next dbMask hdm =>
    split at h
    · cases h
    next m' hsep =>
    split at h
    · cases h
    next hcheck =>
    cases h
    simp only [not_or, not_not, Nat.not_lt] at hlen hcheck
    exact ⟨hlen.1, hlen.2, hcheck.1, _, ⟨seedMask, dbMask, hsm, hdm, rfl⟩, paddedBlock_iff.mp ⟨hcheck.2, hsep⟩⟩
  · rintro ⟨hlen, hshort, hy, db, ⟨seedMask, dbMask, hsm, hdm, rfl⟩, hpad⟩
    obtain ⟨hhash, hsep⟩ := paddedBlock_iff.mpr hpad
    simp only [oaepDecode, hsm, hdm, hsep, hy, hhash]
    rw [if_neg (by omega), if_neg (by simp)]

/-- The one error: a failed check raises DecodingError, and no call of MGF raises (42_oaep R138, R141). -/
theorem oaepDecode_error {c : Config} {n : Nat} {em l : Octets} {e : CoreError} (hc : c.Valid) (hk : byteLen n ≤ c.kmax)
    (h : oaepDecode c n em l = .error e) : e = .decodingError := by
  obtain ⟨seedMask, hsm, _⟩ := mgf_ok_of_valid hc (em.drop (c.hlen + 1)) (.inr (Nat.le_refl c.hlen))
  obtain ⟨dbMask, hdm, _⟩ := mgf_ok_of_valid hc (xorOctets ((em.drop 1).take c.hlen) seedMask)
    (show byteLen n - c.hlen - 1 ≤ c.kmax ∨ _ from .inl (by omega))
  simp only [oaepDecode, hsm, hdm] at h
  split at h
  · cases h
    rfl
  · split at h
    · cases h
      rfl
    · split at h <;> cases h
      rfl

theorem oaepDecode_of_not_ok {c : Config} {n : Nat} {em l : Octets} (hc : c.Valid) (hk : byteLen n ≤ c.kmax)
    (h : ∀ m, oaepDecode c n em l ≠ .ok m) : oaepDecode c n em l = .error .decodingError := by
  cases hr : oaepDecode c n em l with
  | error e => rw [oaepDecode_error hc hk hr]
  | ok m => exact absurd hr (h m)

/-- Settles O29: each of the three causes contradicts a check of a success. -/
theorem decoderRaisesOneError : Obligations.DecoderRaisesOneError := by
  refine fun c n em l hc hk => ⟨fun hcause => oaepDecode_of_not_ok hc hk fun m h => ?_, fun e => oaepDecode_error hc hk⟩
  obtain ⟨hlen, hshort, hy, _⟩ := oaepDecode_eq_ok_iff.mp h
  rcases hcause with hcause | hcause | hcause
  · exact hcause hlen
  · omega
  · exact hcause hy

/-- Under the masks of a data block the decoder finds that block and no other. -/
theorem unmasks_oaepMask {c : Config} {k : Nat} {seed db em db' : Octets} (hc : c.Valid) (hk : k ≤ c.kmax)
    (hs : seed.length = c.hlen) (hd : db.length = k - c.hlen - 1) (hem : oaepMask c k seed db = .ok em) :
    Unmasks c k em db' ↔ db' = db := by
  obtain ⟨dbMask, seedMask, hdm, hdml, hsm, hsml, hok⟩ := oaepMask_ok_of_valid seed db hc hk
  rw [hok] at hem
  cases hem
  obtain ⟨hseed, hdb⟩ := em_parts (a := xorOctets seed seedMask) (b := xorOctets db dbMask)
    (by rw [xorOctets_length, hs, hsml, Nat.min_self]) 0x00#8
  have hseed' : xorOctets (xorOctets seed seedMask) seedMask = seed := xorOctets_cancel (by omega)
  have hdb' : xorOctets (xorOctets db dbMask) dbMask = db := xorOctets_cancel (by omega)
  simp only [Unmasks, hseed, hdb, hsm, Except.ok.injEq, exists_and_left, exists_eq_left', hseed', hdm, hdb']

/-- Of a data block under its masks, the decoder accepts exactly a padded one. -/
theorem oaepDecode_oaepMask {c : Config} {n : Nat} {l seed db em m : Octets} (hc : c.Valid) (hk : byteLen n ≤ c.kmax)
    (hshort : 2 * c.hlen + 2 ≤ byteLen n) (hs : seed.length = c.hlen) (hd : db.length = byteLen n - c.hlen - 1)
    (hem : oaepMask c (byteLen n) seed db = .ok em) :
    oaepDecode c n em l = .ok m ↔ ∃ p, db = hash c l ++ zeros p ++ [0x01#8] ++ m := by
  obtain ⟨em', hok, hlen, hy, _⟩ := oaepMask_masked hc hk (by omega) hs hd
  rw [hem] at hok
  cases hok
  have hy' : em.getD 0 0x00#8 = 0x00#8 := by
    rwa [List.getD_eq_getElem _ _ (by omega)] at hy ⊢
  simp only [oaepDecode_eq_ok_iff, unmasks_oaepMask hc hk hs hd hem, exists_eq_left, hlen, hshort, hy', true_and]

/-- Settles O28: the decoder finds the data block under its masks, and its checks are the padding. -/
theorem decoderAcceptsExactlyPaddedBlocks : Obligations.DecoderAcceptsExactlyPaddedBlocks :=
  fun _ _ _ _ _ _ _ hc hk hshort hs hd hem => oaepDecode_oaepMask hc hk hshort hs hd hem

/-- What the decoder makes of an encoding: only the label's hash can keep it from the message. -/
theorem oaepDecode_oaepEncode {c : Config} {n : Nat} {m m' l1 l2 seed em : Octets} (hc : c.Valid) (hk : byteLen n ≤ c.kmax)
    (hs : seed.length = c.hlen) (h : oaepEncode c n m l1 (some seed) = .ok em) :
    oaepDecode c n em l2 = .ok m' ↔ ∃ p, oaepDB c (byteLen n) m l1 = hash c l2 ++ zeros p ++ [0x01#8] ++ m' := by
  obtain ⟨hfit, _⟩ := oaepEncode_ok hc hk (by rintro _ ⟨⟩; exact hs) h
  rw [oaepEncode_some l1 seed hfit] at h
  exact oaepDecode_oaepMask hc hk (by omega) hs (oaepDB_length hfit) h

theorem oaepDecode_oaepEncode_same {c : Config} {n : Nat} {m l seed em : Octets} (hc : c.Valid) (hk : byteLen n ≤ c.kmax)
    (hs : seed.length = c.hlen) (h : oaepEncode c n m l (some seed) = .ok em) : oaepDecode c n em l = .ok m :=
  (oaepDecode_oaepEncode hc hk hs h).mpr ⟨_, rfl⟩

/-- Settles O26: the encoding exists, and its data block is padded. -/
theorem oaepRoundTrip : Obligations.OaepRoundTrip := by
  intro c n m l seed hc hk hs hfit
  obtain ⟨em, hok, _⟩ := oaepEncode_masked l hc hk hs hfit
  exact ⟨em, hok, oaepDecode_oaepEncode_same hc hk hs hok⟩

/-- Settles O27: the data block begins with the hash of the label it was made under. -/
theorem labelBinding : Obligations.LabelBinding := by
  intro c n m l1 l2 seed em hc hk hs h
  refine ⟨fun hne => oaepDecode_of_not_ok hc hk fun m' hdec => hne ?_, fun heq => ?_⟩
  · obtain ⟨p, hdb⟩ := (oaepDecode_oaepEncode hc hk hs h).mp hdec
    simp only [oaepDB, List.append_assoc] at hdb
    exact List.append_inj_left hdb (by rw [hash_length, hash_length])
  · exact oaepDecode_oaepEncode_same hc hk hs ((oaepEncode_congr_hash heq.symm n m _).trans h)

/-! ### The encoded number under the modulus -/

/-- An encoding is a number below the modulus (42_oaep R132 (c)): it has a leading zero octet, the modulus has not. -/
theorem os2ip_oaepEncode_lt {c : Config} {n : Nat} {m l em : Octets} {draw : Option Octets} (hc : c.Valid)
    (hk : byteLen n ≤ c.kmax) (hs : ∀ seed, draw = some seed → seed.length = c.hlen) (h : oaepEncode c n m l draw = .ok em) :
    os2ip em < n := by
  obtain ⟨hfit, _, _, hmask⟩ := oaepEncode_ok hc hk hs h
  exact (os2ip_lt_of_masked hmask).trans_le (pow_le_of_byteLen (by omega))

theorem rsaEncrypt_of_error {c : Config} {n e : Nat} {m l : Octets} {draw : Option Octets} {err : CoreError}
    (h : oaepEncode c n m l draw = .error err) : rsaEncrypt c n e m l draw = .error err := by
  rw [rsaEncrypt, h]

/-- After an encoding nothing can fail: the encoding is below the modulus, and so is its power. -/
theorem rsaEncrypt_of_ok {c : Config} {n : Nat} {m l em : Octets} {draw : Option Octets} (e : Nat) (hc : c.Valid)
    (hk : byteLen n ≤ c.kmax) (hs : ∀ seed, draw = some seed → seed.length = c.hlen) (h : oaepEncode c n m l draw = .ok em) :
    rsaEncrypt c n e m l draw = .ok (octetsOf (modExp (os2ip em) e n) (byteLen n)) := by
  have hlt := os2ip_oaepEncode_lt hc hk hs h
  have hprim : prim (os2ip em) e n = .ok (modExp (os2ip em) e n) := by rw [prim, if_neg (by omega)]
  simp only [rsaEncrypt, h, hprim, i2osp_of_lt ((prim_ok_lt hprim).trans (lt_pow_byteLen n))]

/-! ### The commands (42_oaep R133, R137, R138, R142) -/

/-- An encoding within the capacity uses up one answer of the randomness port (42_oaep R133). -/
theorem afterDraw_of_fits {s : State} (h : s.mlen.toNat + 2 * s.cfg.hlen + 2 ≤ kOf s) : afterDraw s = drawTaken s := by
  rw [afterDraw, if_pos (asksDraw_iff.mpr h)]

/-- Within the capacity and with an answer of the port the command's encoding succeeds. -/
theorem oaepEncode_operands {s : State} {seed : Octets} (hc : s.cfg.Valid)
    (hfit : s.mlen.toNat + 2 * s.cfg.hlen + 2 ≤ kOf s) (hdraw : drawAnswer s = some seed) :
    ∃ em, oaepEncode s.cfg (intOf s .nwin) (mbufString s) (labelString s) (some seed) = .ok em ∧ em.length = kOf s := by
  obtain ⟨em, hok, hlen, _⟩ := oaepEncode_masked (m := mbufString s) (labelString s) hc (kOf_le s) (drawAnswer_length hdraw)
    (by rwa [mbufString_length])
  exact ⟨em, hok, hlen⟩

/-- Settles O39: the encoding has K octets, so it fits OBUF. -/
theorem oaepEncPutsTheEncodingInObuf : Obligations.OaepEncPutsTheEncodingInObuf := by
  intro s seed hc hfit hdraw
  obtain ⟨em, hok, hlen⟩ := oaepEncode_operands hc hfit hdraw
  have hexec : exec .oaepEnc s = .next (completeString (drawTaken s) (.ok em)) := by
    rw [exec, execOaepEnc, afterDraw_of_fits hfit, hdraw, hok]
  have hbuf : em.length ≤ s.cfg.bmax := le_bmax_of_le_kOf hc (Nat.le_of_eq hlen)
  exact ⟨_, em, hexec, stringResult_completeString (s := drawTaken s) hc hbuf, hok, hlen, exec_keepsOperands hc hexec,
    completeString_env _ _⟩

/-- Settles O40, by the round trip of the encoding in MBUF. -/
theorem oaepDecRecoversTheMessage : Obligations.OaepDecRecoversTheMessage := by
  intro s m seed hc hs h
  have hdec := oaepDecode_oaepEncode_same hc (kOf_le s) hs h
  have hexec : exec .oaepDec s = .next (completeString s (.ok m)) := by rw [exec, execOaepDec, hdec]
  have hfit : m.length + 2 * s.cfg.hlen + 2 ≤ kOf s := oaepDecode_length (one_le_hlen hc) hdec
  have hbuf : m.length ≤ s.cfg.bmax := le_bmax_of_le_kOf hc (by omega)
  exact ⟨_, hexec, stringResult_completeString hc hbuf, exec_keepsOperands hc hexec, completeString_env s _⟩

/-- An error leaves its code and the outputs zero (60_exceptions R201). -/
theorem errorResult_raiseError (s : State) (e : CoreError) : ErrorResult (raiseError s e) e := by
  refine ⟨⟨rfl, rfl, rfl, rfl⟩, rfl, fun a ha => ?_⟩
  rw [raiseError_mem, read_clearOutputs, if_pos]
  simpa [inOutput] using ha

/-- STATUS after a decoding failure: code 4, ERR and DONE (10_state R40). -/
theorem statusWord_raiseError_decodingError (s : State) :
    statusWord (raiseError s .decodingError) = 0#8 ++ s.cmdr.extractLsb' 0 8 ++ 0x0406#16 := by
  have hfields : (statusWord (raiseError s .decodingError)).toNat = 0x0406 + s.cmdr.toNat % 256 * 2 ^ 16 := by
    simp [statusWord_toNat, errorCode]
  apply BitVec.eq_of_toNat_eq
  rw [hfields, BitVec.toNat_append, BitVec.toNat_append, shiftLeft_or_eq (BitVec.isLt _), shiftLeft_or_eq (BitVec.isLt _),
    BitVec.extractLsb'_toNat, Nat.shiftRight_zero, BitVec.toNat_ofNat, BitVec.toNat_ofNat]
  omega

/-- DecodingError is the only error with code 4 (60_exceptions R200). -/
theorem errorCode_eq_four {e : CoreError} (h : errorCode e = 4#4) : e = .decodingError := by
  cases e with
  | decodingError => rfl
  | _ => cases h

/-- A string command that ends with code 4 ended with DecodingError. -/
theorem completeString_of_errcode_four {s : State} {r : Except CoreError Octets} (h : (completeString s r).errcode = 4#4) :
    completeString s r = raiseError s .decodingError := by
  rcases completeString_cases s r with ⟨e, _, hr⟩ | ⟨xs, _, hr⟩ <;> rw [hr] at h ⊢
  · rw [errorCode_eq_four h]
  · cases h

/-- OAEP_DEC fails with code 4 or not at all. -/
theorem execOaepDec_errcode {s t : State} (hc : s.cfg.Valid) (h : exec .oaepDec s = .next t) (hfail : t.errcode ≠ 0#4) :
    t.errcode = 4#4 := by
  cases h
  cases hr : oaepDecode s.cfg (intOf s .nwin) (mbufString s) (labelString s) with
  | error e =>
    rw [oaepDecode_error hc (kOf_le s) hr]
    rfl
  | ok m =>
    rw [hr] at hfail
    exact absurd rfl hfail

/-- Settles O45: every such failure is `raiseError` of the state, with one and the same error. -/
theorem decodeFailuresAreIndistinguishable : Obligations.DecodeFailuresAreIndistinguishable := by
  intro s t i hc h hfail
  have ht : t = raiseError s .decodingError := by
    rcases hfail with ⟨rfl, hne⟩ | ⟨rfl, h4⟩
    · have h4 := execOaepDec_errcode hc h hne
      cases h
      exact completeString_of_errcode_four h4
    · cases h
      exact completeString_of_errcode_four h4
  have hkeep := exec_keepsOperands hc h
  subst ht
  exact ⟨errorResult_raiseError s _, hkeep, rfl, statusWord_raiseError_decodingError s⟩

/-- Settles O48: the length check decides, and behind it only the randomness port could fail. -/
theorem capacityBoundaryOfEncoding : Obligations.CapacityBoundaryOfEncoding := by
  intro s t i hc hi h
  refine ⟨fun hover => ?_, fun hfit hdraw => ?_⟩
  · have hlong := oaepEncode_of_gt (c := s.cfg) (n := intOf s .nwin) (m := mbufString s) (labelString s) (drawAnswer s)
      (show kOf s < _ by rw [mbufString_length]; omega)
    rcases hi with rfl | rfl <;> cases h
    · rw [hlong]
      rfl
    · rw [rsaEncrypt_of_error hlong]
      rfl
  · obtain ⟨seed, hseed⟩ := Option.ne_none_iff_exists'.mp hdraw
    obtain ⟨em, hok, _⟩ := oaepEncode_operands hc (Nat.le_of_eq hfit) hseed
    rcases hi with rfl | rfl <;> cases h <;> rw [hseed]
    · rw [hok]
      rfl
    · rw [rsaEncrypt_of_ok _ hc (kOf_le s) (by rintro _ ⟨⟩; exact drawAnswer_length hseed) hok]
      rfl

end Sys2Proof.Machine

/-! ## Proofs for 43_rsa -/

namespace Sys2Proof.Machine

/-! ### Modular exponentiation (43_rsa R150, R151) -/

/-- The reference algorithm gives the power: the loop over all bits of the exponent, from the accumulator 1. -/
theorem modExp_eq_pow_mod (b x n : Nat) : modExp b x n = b ^ x % n := by
  rw [modExp, modExpLoop_eq, one_pow, one_mul, Nat.mod_eq_of_lt (lt_two_pow_bitLen x)]

/-- Settles O20: the loop gives the power, and a residue is below its modulus. -/
theorem modExpIsThePower : Obligations.ModExpIsThePower := by
  intro b x n hn
  rw [modExp_eq_pow_mod]
  exact ⟨rfl, Nat.mod_lt _ hn⟩

/-- Settles O21, by the value of each power. -/
theorem modExpAtZeroAndOne : Obligations.ModExpAtZeroAndOne := by
  simp only [Obligations.ModExpAtZeroAndOne, modExp_eq_pow_mod, pow_zero, one_pow, pow_one, Nat.mod_one, implies_true, true_and]
  refine ⟨fun _ n hn => Nat.mod_eq_of_lt hn, fun x n _ hx => ?_, trivial⟩
  rw [Nat.zero_pow hx, Nat.zero_mod]

/-! ### The primitives (43_rsa R152, R159) -/

theorem prim_of_le {v n : Nat} (x : Nat) (h : n ≤ v) : prim v x n = .error .messageRepresentativeOutOfRange := by
  rw [prim, if_pos h]

theorem prim_of_lt {v n : Nat} (x : Nat) (h : v < n) : prim v x n = .ok (v ^ x % n) := by
  rw [prim, if_neg (by omega), modExp_eq_pow_mod]

/-- Settles O23: with `n = 0` every `v` is out of range. -/
theorem primitiveRangeRule : Obligations.PrimitiveRangeRule :=
  fun v x _ => ⟨prim_of_le x, prim_of_lt x, prim_of_le x (Nat.zero_le v)⟩

/-- Settles O24: the reference algorithm computes the four values. -/
theorem toyKeyIdentity : Obligations.ToyKeyIdentity := ⟨rfl, rfl, rfl, rfl⟩

/-! ### Barrett reduction (43_rsa R154) -/

/-- Two corrective subtractions take a value below three times the modulus below it. -/
theorem subOnce_subOnce_lt {n r : Nat} (h : r < 3 * n) : subOnce n (subOnce n r) < n := by
  apply subOnce_lt
  unfold subOnce
  split <;> omega

/-- Barrett's estimate, with `A = 2^(w-1)`, so that `2^(2w) = 4 A^2` and `2^(w+1) = 4 A`. -/
def barrettEstimate (A n t : Nat) : Nat := t / A * (4 * A * A / n) / (4 * A)

/-- The estimate is never above the quotient. -/
theorem barrettEstimate_mul_le {A n t : Nat} (hA : 0 < A) : barrettEstimate A n t * n ≤ t := by
  refine Nat.le_of_mul_le_mul_left ?_ (show 0 < 4 * A by omega)
  calc 4 * A * (barrettEstimate A n t * n) = 4 * A * barrettEstimate A n t * n := by ring
    _ ≤ t / A * (4 * A * A / n) * n := Nat.mul_le_mul_right _ (Nat.mul_div_le _ _)
    _ = t / A * (n * (4 * A * A / n)) := by ring
    _ ≤ t / A * (4 * A * A) := Nat.mul_le_mul_left _ (Nat.mul_div_le _ _)
    _ = 4 * A * (A * (t / A)) := by ring
    _ ≤ 4 * A * t := Nat.mul_le_mul_left _ (Nat.mul_div_le _ _)

/-- The estimate is at most two below the quotient: each of its three divisions rounds down. -/
theorem lt_barrettEstimate_mul {A n t : Nat} (hA : A ≤ n) (hn : n < 2 * A) (ht : t < n * n) :
    t < (barrettEstimate A n t + 3) * n := by
  have h1 : t < A * (t / A + 1) := Nat.lt_mul_div_succ _ (by omega)
  have h2 : 4 * A * A < n * (4 * A * A / n + 1) := Nat.lt_mul_div_succ _ (by omega)
  have h3 : t / A * (4 * A * A / n) < 4 * A * (barrettEstimate A n t + 1) := Nat.lt_mul_div_succ _ (by omega)
  have h4 : t / A < 4 * A := Nat.div_lt_of_lt_mul (by nlinarith)
  generalize t / A = a at *
  generalize 4 * A * A / n = mu at *
  generalize barrettEstimate A n t = q at *
  refine Nat.lt_of_mul_lt_mul_left (a := 4 * A) ?_
  calc 4 * A * t ≤ 4 * A * (A * (a + 1)) := Nat.mul_le_mul_left _ h1.le
    _ = a * (4 * A * A) + 4 * A * A := by ring
    _ ≤ a * (n * (mu + 1)) + 4 * A * n := by gcongr
    _ = a * mu * n + a * n + 4 * A * n := by ring
    _ < 4 * A * (q + 1) * n + 4 * A * n + 4 * A * n := by gcongr <;> omega
    _ = 4 * A * ((q + 3) * n) := by ring

/-- The model's reduction is the two corrections of the estimate's remainder. -/
theorem barrett_eq {n w : Nat} (hw : bitLen n = w + 1) (t : Nat) :
    barrett n t = subOnce n (subOnce n (t - barrettEstimate (2 ^ w) n t * n)) := by
  have hsq : 2 ^ (2 * (w + 1)) = 4 * 2 ^ w * 2 ^ w := by ring
  have hnext : 2 ^ (w + 1 + 1) = 4 * 2 ^ w := by ring
  simp only [barrett, barrettEstimate, hw, hsq, hnext, Nat.add_sub_cancel]

theorem barrett_eq_mod {n t : Nat} (hn : 1 ≤ n) (ht : t < n * n) : barrett n t = t % n := by
  have hup := lt_two_pow_bitLen n
  obtain ⟨w, hw⟩ : ∃ w, bitLen n = w + 1 :=
    Nat.exists_eq_add_one_of_ne_zero fun h0 => by rw [h0] at hup; omega
  have hlow : 2 ^ w ≤ n := two_pow_le_of_bitLen (by omega)
  rw [hw, pow_succ'] at hup
  have hle := barrettEstimate_mul_le (n := n) (t := t) (Nat.two_pow_pos w)
  have hlt := lt_barrettEstimate_mul hlow hup ht
  rw [add_mul] at hlt
  rw [barrett_eq hw, ← Nat.mod_eq_of_lt (subOnce_subOnce_lt (show t - _ * n < 3 * n by omega)), subOnce_mod, subOnce_mod]
  rw [mul_comm] at hle ⊢
  exact Nat.sub_mul_mod hle

/-! ### Montgomery multiplication (43_rsa R154) -/

/-- The multiple of `n` that Montgomery's product adds to `t`. -/
def montFactor (n w t : Nat) : Nat := t % 2 ^ w * negInv n w % 2 ^ w

/-- Adding that multiple makes the product divisible by `R = 2^w`. -/
theorem dvd_add_montFactor_mul {n : Nat} (hn : n % 2 = 1) (w t : Nat) : 2 ^ w ∣ t + montFactor n w t * n := by
  have hfactor : montFactor n w t ≡ t * negInv n w [MOD 2 ^ w] :=
    (Nat.mod_modEq _ _).trans ((Nat.mod_modEq _ _).mul_right _)
  have hsum : t + montFactor n w t * n ≡ t * (negInv n w * n + 1) [MOD 2 ^ w] :=
    calc t + montFactor n w t * n ≡ t + t * negInv n w * n [MOD 2 ^ w] := (hfactor.mul_right n).add_left t
      _ = t * (negInv n w * n + 1) := by ring
  exact (hsum.dvd_iff dvd_rfl).mpr ((Nat.dvd_of_mod_eq_zero (negInv_spec hn w)).mul_left t)

/-- Montgomery's product is the residue below `n` whose product with `R` is `a * b`. -/
theorem montMul_spec {n w a b : Nat} (hn : n % 2 = 1) (hw : n < 2 ^ w) (ha : a < n) (hb : b < n) :
    montMul n w a b < n ∧ montMul n w a b * 2 ^ w ≡ a * b [MOD n] := by
  have hdiv := Nat.div_mul_cancel (dvd_add_montFactor_mul hn w (a * b))
  have hm : montFactor n w (a * b) < 2 ^ w := Nat.mod_lt _ (Nat.two_pow_pos w)
  have hdef : montMul n w a b = subOnce n ((a * b + montFactor n w (a * b) * n) / 2 ^ w) := rfl
  rw [hdef]
  constructor
  · apply subOnce_lt
    apply Nat.div_lt_of_lt_mul
    have hab : a * b < n * 2 ^ w := Nat.mul_lt_mul'' ha (hb.trans hw)
    have hmn : montFactor n w (a * b) * n < 2 ^ w * n := Nat.mul_lt_mul_of_pos_right hm (by omega)
    linarith
  · calc _ ≡ (a * b + montFactor n w (a * b) * n) / 2 ^ w * 2 ^ w [MOD n] := Nat.ModEq.mul_right _ (subOnce_mod _ _)
      _ = a * b + montFactor n w (a * b) * n := hdiv
      _ ≡ a * b [MOD n] := Nat.add_mul_mod_self_right _ _ _

/-- Converting in by `R^2` and out by 1 gives the operand back: `R` has an inverse modulo an odd `n`. -/
theorem montMul_roundTrip {n w a : Nat} (hn : n % 2 = 1) (hw : n < 2 ^ w) (ha : a < n) (h1 : 1 < n) :
    montMul n w (montMul n w a (2 ^ (2 * w) % n)) 1 = a := by
  obtain ⟨hin_lt, hin⟩ := montMul_spec hn hw ha (Nat.mod_lt (2 ^ (2 * w)) (by omega))
  obtain ⟨hout_lt, hout⟩ := montMul_spec hn hw hin_lt h1
  have hcop : Nat.gcd n (2 ^ (2 * w)) = 1 :=
    Nat.Coprime.pow_right _ (Nat.coprime_two_right.mpr (Nat.odd_iff.mpr hn))
  refine Nat.ModEq.eq_of_lt_of_lt (Nat.ModEq.cancel_right_of_coprime hcop ?_) hout_lt ha
  generalize montMul n w a (2 ^ (2 * w) % n) = x at *
  calc montMul n w x 1 * 2 ^ (2 * w) = montMul n w x 1 * 2 ^ w * 2 ^ w := by ring
    _ ≡ x * 1 * 2 ^ w [MOD n] := hout.mul_right _
    _ = x * 2 ^ w := by ring
    _ ≡ a * (2 ^ (2 * w) % n) [MOD n] := hin
    _ ≡ a * 2 ^ (2 * w) [MOD n] := (Nat.mod_modEq _ _).mul_left a

/-- Settles O22: each technique by its own lemmas above. -/
theorem reductionTechniquesAreExact : Obligations.ReductionTechniquesAreExact := by
  refine ⟨fun n t => barrett_eq_mod, fun n w a b hn hw ha hb => ?_⟩
  obtain ⟨hlt, hmod⟩ := montMul_spec hn hw ha hb
  exact ⟨hlt, hmod, montMul_roundTrip hn hw ha⟩

/-! ### Encrypt and Decrypt (43_rsa R160, R162, R164, R167) -/

/-- The encryption of an encoding: `k` octets of its power. -/
theorem rsaEncrypt_eq_pow {c : Config} {n : Nat} {m l em : Octets} {draw : Option Octets} (e : Nat) (hc : c.Valid)
    (hk : byteLen n ≤ c.kmax) (hs : ∀ seed, draw = some seed → seed.length = c.hlen) (h : oaepEncode c n m l draw = .ok em) :
    ∃ ct, rsaEncrypt c n e m l draw = .ok ct ∧ ct.length = byteLen n ∧ os2ip ct = os2ip em ^ e % n := by
  refine ⟨_, rsaEncrypt_of_ok e hc hk hs h, octetsOf_length _ _, ?_⟩
  have hpow : os2ip em ^ e % n < n := Nat.mod_lt _ (Nat.zero_lt_of_lt (os2ip_oaepEncode_lt hc hk hs h))
  rw [modExp_eq_pow_mod, os2ip_octetsOf_of_lt (hpow.trans (lt_pow_byteLen n))]

/-- Settles O30: an error is the encoder's, and an encoding has its encryption. -/
theorem encryptRaisesOnlyEncodeErrors : Obligations.EncryptRaisesOnlyEncodeErrors := by
  intro c n e m l draw hc hk hs
  refine ⟨fun err herr => ?_, fun em hem => ⟨os2ip_oaepEncode_lt hc hk hs hem, rsaEncrypt_eq_pow e hc hk hs hem⟩⟩
  cases henc : oaepEncode c n m l draw with
  | error err' =>
    rw [rsaEncrypt_of_error henc] at herr
    cases herr
    exact ⟨rfl, (oaepEncode_error hc hk hs henc).imp And.left And.left⟩
  | ok em =>
    rw [rsaEncrypt_of_ok e hc hk hs henc] at herr
    cases herr

/-- A ciphertext of `k` octets below the modulus is decoded from the octets of its power. -/
theorem rsaDecrypt_eq_oaepDecode {c : Config} {n d : Nat} {ct em : Octets} (l : Octets) (hlen : ct.length = byteLen n)
    (hlt : os2ip ct < n) (hemlen : em.length = byteLen n) (hem : os2ip em = os2ip ct ^ d % n) :
    rsaDecrypt c n d ct l = oaepDecode c n em l := by
  have hback : i2osp (os2ip em) (byteLen n) = .ok em := by
    rw [← hemlen, i2osp_of_lt (os2ip_lt em), octetsOf_os2ip]
  rw [rsaDecrypt, if_neg (not_not.mpr hlen)]
  simp only [prim_of_lt d hlt, ← hem, hback]

/-- A ciphertext whose power is an encoding decrypts to the encoded message. -/
theorem rsaDecrypt_of_oaepEncode {c : Config} {n d : Nat} {ct m l seed em : Octets} (hc : c.Valid) (hk : byteLen n ≤ c.kmax)
    (hs : seed.length = c.hlen) (h : oaepEncode c n m l (some seed) = .ok em) (hlen : ct.length = byteLen n)
    (hlt : os2ip ct < n) (hem : os2ip em = os2ip ct ^ d % n) : rsaDecrypt c n d ct l = .ok m := by
  have hemlen := oaepEncode_length (one_le_hlen hc) (by rintro _ ⟨⟩; exact hs) h
  rw [rsaDecrypt_eq_oaepDecode l hlen hlt hemlen hem, oaepDecode_oaepEncode_same hc hk hs h]

/-- The key relation at one value, as powers. -/
theorem pow_pow_mod_of_prim {v e d n r : Nat} (hv : v < n) (he : prim v e n = .ok r) (hd : prim r d n = .ok v) :
    v = (v ^ e % n) ^ d % n := by
  rw [prim_of_lt e hv] at he
  cases he
  rw [prim_of_lt d (Nat.mod_lt _ (by omega))] at hd
  exact (Except.ok.inj hd).symm

/-- Settles O31: the key relation takes the power of the ciphertext back to the encoding. -/
theorem encryptDecryptRoundTrip : Obligations.EncryptDecryptRoundTrip := by
  intro c n e d m l seed hc hk hkey hs hfit
  have hs' : ∀ x, some seed = some x → x.length = c.hlen := by rintro _ ⟨⟩; exact hs
  obtain ⟨em, hem, _⟩ := oaepEncode_masked l hc hk hs hfit
  obtain ⟨ct, hct, hlen, hpow⟩ := rsaEncrypt_eq_pow e hc hk hs' hem
  have hlt := os2ip_oaepEncode_lt hc hk hs' hem
  obtain ⟨r, he, hd⟩ := hkey _ hlt
  refine ⟨ct, hct, rsaDecrypt_of_oaepEncode hc hk hs hem hlen ?_ ?_⟩
  · rw [hpow]
    exact Nat.mod_lt _ (by omega)
  · rw [hpow]
    exact pow_pow_mod_of_prim hlt he hd

/-! ### The commands (43_rsa R155 to R158, R161, R163) -/

/-- A primitive command with `X < N`, its exponent in window `w`: the power is below N, so it fits YWIN. -/
theorem primitive_completes {s : State} {i : Instr} {w : Window} (hc : s.cfg.Valid) (hx : intOf s .xwin < intOf s .nwin)
    (hexec : exec i s = .next (completeInt s (prim (intOf s .xwin) (intOf s w) (intOf s .nwin)))) :
    ∃ t, exec i s = .next t ∧ IntResult t (intOf s .xwin ^ intOf s w % intOf s .nwin) ∧ KeepsOperands s t ∧ t.env = s.env := by
  refine ⟨_, hexec, ?_, exec_keepsOperands hc hexec, completeInt_env s _⟩
  rw [prim_of_lt _ hx]
  exact intResult_completeInt hc ((Nat.mod_lt _ (by omega)).trans (intOf_lt s .nwin))

/-- Settles O37: both commands are the primitive with the exponent in EWIN. -/
theorem publicPrimitivesRaiseToE : Obligations.PublicPrimitivesRaiseToE := by
  rintro s i (rfl | rfl) hc hx <;> exact primitive_completes hc hx rfl

/-- Settles O38: both commands are the primitive with the exponent in DWIN. -/
theorem secretPrimitivesRaiseToD : Obligations.SecretPrimitivesRaiseToD := by
  rintro s i (rfl | rfl) hc hx <;> exact primitive_completes hc hx rfl

/-- Settles O41: the ciphertext has K octets, so it fits OBUF. -/
theorem encryptPutsTheCiphertextInObuf : Obligations.EncryptPutsTheCiphertextInObuf := by
  intro s seed hc hfit hdraw
  obtain ⟨em, hem, _⟩ := oaepEncode_operands hc hfit hdraw
  obtain ⟨ct, hct, hlen, hpow⟩ := rsaEncrypt_eq_pow (intOf s .ewin) hc (kOf_le s)
    (by rintro _ ⟨⟩; exact drawAnswer_length hdraw) hem
  have hexec : exec .encrypt s = .next (completeString (drawTaken s) (.ok ct)) := by
    rw [exec, execEncrypt, afterDraw_of_fits hfit, hdraw, hct]
  have hbuf : ct.length ≤ s.cfg.bmax := le_bmax_of_le_kOf hc (Nat.le_of_eq hlen)
  exact ⟨_, em, ct, hexec, hem, stringResult_completeString (s := drawTaken s) hc hbuf, hlen, hpow,
    exec_keepsOperands hc hexec, completeString_env _ _⟩

/-- Settles O42: the message is within the capacity, so it fits OBUF. -/
theorem decryptRecoversTheMessage : Obligations.DecryptRecoversTheMessage := by
  intro s m seed em hc hlen hlt hs hem hpow
  have hdec := rsaDecrypt_of_oaepEncode hc (kOf_le s) hs hem ((mbufString_length s).trans hlen) hlt hpow
  have hexec : exec .decrypt s = .next (completeString s (.ok m)) := by rw [exec, execDecrypt, hdec]
  have hfit : m.length + 2 * s.cfg.hlen + 2 ≤ kOf s := rsaDecrypt_length (one_le_hlen hc) hdec
  have hbuf : m.length ≤ s.cfg.bmax := le_bmax_of_le_kOf hc (by omega)
  exact ⟨_, hexec, stringResult_completeString hc hbuf, exec_keepsOperands hc hexec, completeString_env s _⟩

end Sys2Proof.Machine

/-! ## Proofs for 44_control -/

namespace Sys2Proof.Machine

/-! ### ISSUE and COMPLETE (44_control R181, R184, R187) -/

/-- A write of CMD while IDLE is ISSUE, whether or not the word is legal. -/
theorem hostWrite_cmd_idle {s : State} (hi : s.seq = .idle) (w : Word) : hostWrite s 0x0014 4 w = (.okay, issue s w) :=
  hostWrite_control (by omega) (by omega) (by rw [writeControl, if_neg (by simp [hi])])

theorem complete_of_decode {s : State} {i : Instr} (h : decode s.cmdr = some i) : complete s = exec i s := by
  rw [complete, h]

theorem complete_of_illegal {s : State} (h : decode s.cmdr = none) : complete s = .next (completeIllegal s) := by
  rw [complete, h]

/-- Settles O8: ISSUE is the CMD branch of a write while IDLE. -/
theorem issueLatchesTheWord : Obligations.IssueLatchesTheWord := fun _ w hi => hostWrite_cmd_idle hi w

/-- STATUS of a command in flight: BUSY and OPC, no code and no DONE. -/
theorem statusWord_issue_toNat (s : State) (w : Word) : (statusWord (issue s w)).toNat = 1 + (w.toNat % 256) * 2 ^ 16 := by
  rw [statusWord_toNat]
  simp [issue]

/-- Settles O9: the word goes through the same ISSUE, and COMPLETE finds no command in CMDR. -/
theorem illegalWordCompletesWithCodeSeven : Obligations.IllegalWordCompletesWithCodeSeven := by
  refine ⟨fun s w hi hw => ?_, ?_, ?_⟩
  · exact ⟨issue s w, hostWrite_cmd_idle hi w, rfl, statusWord_issue_toNat s w, complete_of_illegal hw⟩
  · exact ⟨_, _, hostWrite_cmd_idle rfl _, complete_of_illegal (by decide), by decide⟩
  · exact ⟨_, _, hostWrite_cmd_idle rfl _, complete_of_illegal (by decide), by decide⟩

/-- Settles O33: NOP is `finish` with code 0, and its word decodes to it. -/
theorem nopOnlyEnds : Obligations.NopOnlyEnds := by
  have hdec : decode 0x00000000#32 = some .nop := decode_encode .nop
  refine ⟨hdec, fun s => rfl, fun s t h => ?_, ?_⟩
  · cases h
    exact Bool.and_true s.ie
  · exact ⟨_, _, hostWrite_cmd_idle rfl _, complete_of_decode (i := .nop) hdec, by decide⟩

/-! ### Which event a step makes (44_control R180) -/

theorem step_of_agenda_nil {s : State} (h : s.env.agenda = []) : step s = coreMove s := by
  rw [step, nextStep, h]

theorem step_of_agenda_cons {s : State} {e : Event} {es : List Event} (h : s.env.agenda = e :: es) :
    step s = eventStep (dropEvent s) e := by
  rw [step, nextStep, h]

theorem coreMove_of_busy {s : State} (hb : s.seq = .busy) : coreMove s = complete s := by
  rw [coreMove, hb]

theorem coreMove_of_idle {s : State} (hi : s.seq = .idle) : coreMove s = .next s := by
  rw [coreMove, hi]

/-- A command word placed by the host's check is the one the next step completes, and what was on the agenda still comes after
it (log 11). -/
theorem step_placeCommand (s : State) (w : Word) : step (placeCommand s w) = complete (issue s w) := by
  cases h : s.env.agenda with
  | nil =>
    have hplaced : placeCommand s w = issue s w := by rw [placeCommand, h, coreFirst, ← h]; rfl
    rw [hplaced, step_of_agenda_nil (s := issue s w) h, coreMove_of_busy rfl]
  | cons e es =>
    have hfirst : (placeCommand s w).env.agenda = .coreTurn :: e :: es := by rw [placeCommand, h, coreFirst]
    have hdrop : dropEvent (placeCommand s w) = issue s w := by rw [dropEvent, hfirst, List.tail_cons, ← h]; rfl
    rw [step_of_agenda_cons hfirst, hdrop, eventStep, coreMove_of_busy rfl]

/-- Settles O6: the step's agenda, then the core's move by SEQ and by what CMDR decodes to. -/
theorem stepRunsDecodedCommand : Obligations.StepRunsDecodedCommand := by
  refine ⟨fun s e es h => step_of_agenda_cons h, fun s h => step_of_agenda_nil h, fun s i hb hd => ?_, fun s hb hd => ?_,
    fun s hi => coreMove_of_idle hi, fun s w i hw hd => ?_⟩
  · exact (coreMove_of_busy hb).trans (complete_of_decode hd)
  · exact (coreMove_of_busy hb).trans (complete_of_illegal hd)
  · rw [decodeTableWord, if_pos ⟨by omega, hw⟩] at hd
    rw [State.withFetchWord, Nat.mod_eq_of_lt hw, step_placeCommand]
    exact complete_of_decode hd

/-! ### Between ISSUE and COMPLETE (44_control R182) -/

theorem clearDone_of_not_done {s : State} (h : s.done = false) : clearDone s = s := by
  rw [clearDone, ← h]

/-- While BUSY the control block takes a write of CTRL only: IE, or the soft reset; there is no DONE to clear. -/
theorem writeControl_busy_cases {s : State} (hb : s.seq = .busy) (hd : s.done = false) {a : Nat} {v : Word} {r : Resp × State}
    (h : writeControl s a v = some r) :
    r.2 = s ∨ a = 0x000C ∧ r.2 = if v.getLsbD 1 then resetBlock s else { s with ie := v.getLsbD 0 } := by
  unfold writeControl at h
  split at h
  · refine .inr ⟨rfl, ?_⟩
    split at h
    · next hv =>
      cases h
      rw [if_pos hv]
    · next hv =>
      cases h
      rw [if_neg hv]
  · cases h
    exact .inl (by rw [clearDone_of_not_done hd, ite_self])
  · rw [if_pos hb] at h
    cases h
    exact .inl rfl
  · cases h

/-- The operand block begins at `0x0020` (20_memory R61). -/
theorem writeOperand_of_lt (s : State) {a : Nat} (ha : a < 0x0020) (v : Word) : writeOperand s a v = (.err, s) := by
  unfold writeOperand
  split
  case h_5 => rfl
  all_goals omega

/-- While BUSY a host write changes nothing, or is the write of CTRL. -/
theorem hostWrite_busy_cases {s : State} (hb : s.seq = .busy) (hd : s.done = false) (a n : Nat) (v : Word) :
    (hostWrite s a n v).2 = s ∨
    a = 0x000C ∧ (hostWrite s a n v).2 = if v.getLsbD 1 then resetBlock s else { s with ie := v.getLsbD 0 } := by
  by_cases ha : 0x0020 ≤ a
  · exact .inl (by rw [hostWrite_busy hb ha])
  · unfold hostWrite
    split
    · exact .inl rfl
    · rw [if_pos (by omega)]
      split
      · exact .inl rfl
      · cases hctl : writeControl s a v with
        | some r => exact writeControl_busy_cases hb hd hctl
        | none => exact .inl (by simp only [ha, false_and, if_false, writeOperand_of_lt s (Nat.lt_of_not_le ha)])

/-- Settles O10, by the event: a read only records, a reset zeroes, and a write reaches CTRL at most. -/
theorem busyBlockChangesOnlyByControl : Obligations.BusyBlockChangesOnlyByControl := by
  intro s t e hinv hb hcore h
  cases e with
  | hostRead a n =>
    cases h
    exact .inl rfl
  | hostWrite a n v =>
    cases h
    have hdone : s.done = false := (hinv.busy_clean hb).1
    simp only [writeStep]
    rcases hostWrite_busy_cases hb hdone a n v with hw | ⟨rfl, hw⟩
    · rw [hw]
      exact .inl rfl
    · rw [hw]
      split
      · next hv => exact .inr (.inr ⟨allZero_resetBlock (record s _), .inr ⟨v, n, rfl, hv⟩⟩)
      · next hv => exact .inr (.inl ⟨v, n, rfl, Bool.eq_false_of_not_eq_true hv, rfl⟩)
  | coreTurn => exact absurd rfl hcore
  | hardReset =>
    cases h
    exact .inr (.inr ⟨allZero_resetBlock s, .inl rfl⟩)

/-! ### The frame of the commands (44_control R184, R185) -/

/-- Every command, whatever it ends in, leaves the block DONE and IDLE, with scratch zero. -/
theorem exec_ended {s t : State} {i : Instr} (hc : s.cfg.Valid) (h : exec i s = .next t) : ∃ code, Ended t code := by
  rcases exec_cases i s hc with ⟨_, he⟩ | ⟨u, e, _, _, he⟩ | ⟨u, xs, _, _, he⟩ | ⟨xs, _, he⟩ <;> rw [he] at h <;> cases h <;>
    exact ⟨_, rfl, rfl, rfl, rfl⟩

/-- Of the outside world a command uses up at most a draw: it makes no event and answers no host transaction. -/
theorem exec_agenda_answers {s t : State} {i : Instr} (hc : s.cfg.Valid) (h : exec i s = .next t) :
    t.env.agenda = s.env.agenda ∧ t.env.answers = s.env.answers := by
  rcases exec_cases i s hc with ⟨_, he⟩ | ⟨u, e, hu, _, he⟩ | ⟨u, xs, hu, _, he⟩ | ⟨xs, _, he⟩ <;> rw [he] at h <;> cases h
  case inl => exact ⟨rfl, rfl⟩
  case inr.inl => rcases hu with rfl | rfl <;> exact ⟨rfl, rfl⟩
  case inr.inr.inl => rcases hu with rfl | rfl <;> exact ⟨rfl, rfl⟩
  case inr.inr.inr => exact ⟨rfl, rfl⟩

/-- Settles O46, part by part. -/
theorem dataCommandFrame : Obligations.DataCommandFrame := by
  intro s t i hc h
  obtain ⟨hagenda, hanswers⟩ := exec_agenda_answers hc h
  exact ⟨exec_keepsOperands hc h, exec_ended hc h, hagenda, hanswers, fun h1 h2 => exec_env h1 h2 h⟩

end Sys2Proof.Machine

/-! ## Proofs for 60_exceptions -/

namespace Sys2Proof.Machine

/-! ### No step stops (60_exceptions R202) -/

/-- Every command has a meaning, and no meaning faults or refuses. -/
theorem exec_next (i : Instr) (s : State) : ∃ t, exec i s = .next t := by
  cases i <;> exact ⟨_, rfl⟩

theorem coreMove_next (s : State) : ∃ t, coreMove s = .next t := by
  rcases coreMove_cases s with ⟨_, hm⟩ | ⟨_, _, hm⟩ | ⟨i, _, _, hm⟩
  · exact ⟨_, hm⟩
  · exact ⟨_, hm⟩
  · rw [hm]
    exact exec_next i s

theorem eventStep_next (s : State) (e : Event) : ∃ t, eventStep s e = .next t := by
  cases e with
  | hostRead a n => exact ⟨_, rfl⟩
  | hostWrite a n v => exact ⟨_, rfl⟩
  | coreTurn => exact coreMove_next s
  | hardReset => exact ⟨_, rfl⟩

theorem step_next (s : State) : ∃ t, step s = .next t := by
  rcases step_cases s with ⟨_, hs⟩ | ⟨e, _, _, hs⟩ <;> rw [hs]
  · exact coreMove_next s
  · exact eventStep_next _ e

/-- Settles O7, by induction on the number of steps: each one has a next state. -/
theorem noRunEverStops : Obligations.NoRunEverStops := by
  intro k
  induction k with
  | zero => exact fun _ => trivial
  | succ k ih =>
    intro s
    obtain ⟨t, ht⟩ := step_next s
    exact ⟨t, ht, ih t⟩

/-! ### Every COMPLETE raises the interrupt (60_exceptions R210) -/

/-- `t` is an end of COMPLETE of the block `s`: DONE and IDLE, with IE as it was. -/
def EndsWithIe (s t : State) : Prop := t.done = true ∧ t.seq = .idle ∧ t.ie = s.ie

theorem completeString_endsWithIe (s : State) (r : Except CoreError Octets) : EndsWithIe s (completeString s r) := by
  cases r <;> exact ⟨rfl, rfl, rfl⟩

theorem completeInt_endsWithIe (s : State) (r : Except CoreError Nat) : EndsWithIe s (completeInt s r) := by
  rcases completeInt_cases s r with ⟨_, _, h⟩ | ⟨_, _, _, h⟩ | ⟨_, _, _, h⟩ <;> rw [h] <;> exact ⟨rfl, rfl, rfl⟩

/-- Every command ends so, whatever its result and whatever the parameters. -/
theorem exec_endsWithIe {s t : State} {i : Instr} (h : exec i s = .next t) : EndsWithIe s t := by
  cases i with
  | nop => cases h; exact ⟨rfl, rfl, rfl⟩
  | i2osp | mgf1 | oaepDec | decrypt => cases h; exact completeString_endsWithIe s _
  | os2ip | rsaep | rsadp | rsasp1 | rsavp1 => cases h; exact completeInt_endsWithIe s _
  | oaepEnc | encrypt =>
    cases h
    obtain ⟨hdone, hidle, hie⟩ := completeString_endsWithIe (afterDraw s) _
    exact ⟨hdone, hidle, hie.trans (afterDraw_ie s)⟩

theorem complete_endsWithIe {s t : State} (h : complete s = .next t) : EndsWithIe s t := by
  cases hd : decode s.cmdr with
  | none =>
    rw [complete_of_illegal hd] at h
    cases h
    exact ⟨rfl, rfl, rfl⟩
  | some i =>
    rw [complete_of_decode hd] at h
    exact exec_endsWithIe h

/-- The step of a BUSY block whose core moves is COMPLETE. -/
theorem step_of_coreToMove {s : State} (hb : s.seq = .busy) (hmove : coreToMove s) :
    step s = complete s ∨ step s = complete (dropEvent s) := by
  rcases hmove with hnil | ⟨es, hcons⟩
  · exact .inl ((step_of_agenda_nil hnil).trans (coreMove_of_busy hb))
  · exact .inr ((step_of_agenda_cons hcons).trans (coreMove_of_busy (s := dropEvent s) hb))

/-- Settles O49: after any COMPLETE DONE is set, so irq is IE. -/
theorem everyCompletionRaisesIrq : Obligations.EveryCompletionRaisesIrq := by
  intro s t hb hmove h
  have hend : EndsWithIe s t := by
    rcases step_of_coreToMove hb hmove with hs | hs <;> rw [hs] at h
    · exact complete_endsWithIe h
    · exact complete_endsWithIe (s := dropEvent s) h
  obtain ⟨hdone, hidle, hie⟩ := hend
  exact ⟨hdone, hidle, by rw [irq, hdone, Bool.and_true, hie]⟩

/-! ### A failed command leaves nothing (60_exceptions R201, 44_control R185) -/

/-- A data command that reports an error took one: every other end has code 0. -/
theorem errorResult_of_dataEnd {s t : State} (hend : DataEnd s (.next t)) (hfail : t.errcode ≠ 0#4) :
    ∃ e, ErrorResult t e := by
  rcases hend with ⟨u, e, _, _, he⟩ | ⟨u, xs, _, _, he⟩ | ⟨xs, _, he⟩ <;> cases he
  case inl => exact ⟨e, errorResult_raiseError u e⟩
  case inr.inl => exact absurd rfl hfail
  case inr.inr => exact absurd rfl hfail

/-- Settles O44: an error ends in `raiseError`, and no end touches an operand. -/
theorem failedCommandsLeaveNothing : Obligations.FailedCommandsLeaveNothing := by
  intro s t i hc hnop h hfail
  rcases exec_cases i s hc with ⟨hi, _⟩ | hend
  · exact absurd hi hnop
  · rw [h] at hend
    exact ⟨errorResult_of_dataEnd hend hfail, exec_keepsOperands hc h⟩

/-! ### The code a command reports (60_exceptions R200, R212) -/

/-- The code COMPLETE records for the result of a computation: the error's, and 0 for a value (44_control R184). -/
def resultCode {α : Type} : Except CoreError α → BitVec 4
  | .ok _ => 0#4
  | .error e => errorCode e

theorem completeString_errcode (s : State) (r : Except CoreError Octets) : (completeString s r).errcode = resultCode r := by
  cases r <;> rfl

/-- A number that fits YWIN is written without a further check to fail. -/
theorem completeInt_errcode {s : State} {r : Except CoreError Nat} (hfit : ∀ v, r = .ok v → v < 256 ^ s.cfg.kmax) :
    (completeInt s r).errcode = resultCode r := by
  rcases completeInt_cases s r with ⟨e, rfl, h⟩ | ⟨v, rfl, hge, _⟩ | ⟨v, rfl, _, h⟩
  · rw [h]
    rfl
  · exact absurd (hfit v rfl) (Nat.not_lt.mpr hge)
  · rw [h]
    rfl

/-- I2OSP (40_codec R112): a number in XWIN that is too large for the length is too large for a length below KMAX. -/
theorem i2ospResult_code (s : State) :
    resultCode (i2ospResult s.cfg (intOf s .xwin) (lengthArg s)) = expectedCode s .i2osp := by
  rw [expectedCode]
  split
  · next hlarge =>
    have hlen : lengthArg s < s.cfg.kmax :=
      (Nat.pow_lt_pow_iff_right (by omega)).mp (hlarge.trans_lt (intOf_lt s .xwin))
    rw [i2ospResult, if_pos ⟨hlen, hlarge⟩]
    rfl
  · next hfits =>
    split
    · next hlong =>
      rw [i2ospResult, if_neg (fun h => hfits h.2), if_pos hlong]
      rfl
    · next hshort =>
      rw [i2ospResult_of_fits (Nat.lt_of_not_le hfits) (Nat.le_of_not_lt hshort)]
      rfl

/-- OS2IP (40_codec R113). -/
theorem os2ipResult_code (s : State) : resultCode (os2ipResult s.cfg (mbufString s)) = expectedCode s .os2ip := by
  rw [expectedCode]
  split
  · next hlarge =>
    rw [os2ipResult, if_pos hlarge]
    rfl
  · next hfits =>
    rw [os2ipResult_of_lt (Nat.lt_of_not_le hfits)]
    rfl

/-- MGF1 (41_mgf1 R122). -/
theorem mgf1Result_code {s : State} (hc : s.cfg.Valid) :
    resultCode (mgf1Result s.cfg (mbufString s) (lengthArg s)) = expectedCode s .mgf1 := by
  rw [expectedCode]
  split
  · next hbound =>
    rw [mgf1Result, if_pos hbound]
    rfl
  · next hbound =>
    split
    · next hlong =>
      rw [mgf1Result, if_neg hbound, if_pos hlong]
      rfl
    · next hshort =>
      obtain ⟨xs, _, _, hres⟩ := mgf1Result_of_fits hc (mbufString s) (Nat.le_of_not_lt hshort)
      rw [hres]
      rfl

/-- A primitive, with any exponent (43_rsa R152). -/
theorem prim_code (v x n : Nat) : resultCode (prim v x n) = if n ≤ v then 3#4 else 0#4 := by
  split
  · next hge =>
    rw [prim_of_le x hge]
    rfl
  · next hlt =>
    rw [prim_of_lt x (Nat.lt_of_not_le hlt)]
    rfl

/-- The primitive commands (43_rsa R155 to R158): the result is below N, which fits an integer window. -/
theorem completeInt_prim_errcode (s : State) (x : Nat) :
    (completeInt s (prim (intOf s .xwin) x (intOf s .nwin))).errcode =
      if intOf s .nwin ≤ intOf s .xwin then 3#4 else 0#4 := by
  rw [completeInt_errcode fun v hv => (prim_ok_lt hv).trans (intOf_lt s .nwin), prim_code]

/-- The encoding of the message in MBUF (42_oaep R133): the length is checked before the randomness port is asked. -/
theorem oaepEncode_code {s : State} (hc : s.cfg.Valid) :
    resultCode (oaepEncode s.cfg (intOf s .nwin) (mbufString s) (labelString s) (drawAnswer s)) =
      expectedCode s .oaepEnc := by
  rw [expectedCode]
  split
  · next hlong =>
    rw [oaepEncode_of_gt _ _ (by rwa [mbufString_length])]
    rfl
  · next hfit =>
    cases hdraw : drawAnswer s with
    | none =>
      rw [oaepEncode_none _ (by rw [mbufString_length]; exact Nat.le_of_not_lt hfit)]
      rfl
    | some seed =>
      obtain ⟨em, hok, _⟩ := oaepEncode_operands hc (Nat.le_of_not_lt hfit) hdraw
      rw [hok]
      rfl

/-- ENCRYPT reports what its encoding reports: nothing after the encoding can fail (43_rsa R167). -/
theorem rsaEncrypt_code {s : State} (hc : s.cfg.Valid) (e : Nat) :
    resultCode (rsaEncrypt s.cfg (intOf s .nwin) e (mbufString s) (labelString s) (drawAnswer s)) =
      resultCode (oaepEncode s.cfg (intOf s .nwin) (mbufString s) (labelString s) (drawAnswer s)) := by
  cases henc : oaepEncode s.cfg (intOf s .nwin) (mbufString s) (labelString s) (drawAnswer s) with
  | error err => rw [rsaEncrypt_of_error henc]
  | ok em =>
    rw [rsaEncrypt_of_ok e hc (kOf_le s) (fun _ => drawAnswer_length) henc]
    rfl

/-- OAEP_DEC (42_oaep R137, R138). -/
theorem oaepDecode_code {s : State} (hc : s.cfg.Valid) :
    resultCode (oaepDecode s.cfg (intOf s .nwin) (mbufString s) (labelString s)) = expectedCode s .oaepDec := by
  rw [expectedCode]
  cases hdec : oaepDecode s.cfg (intOf s .nwin) (mbufString s) (labelString s) with
  | ok m => rfl
  | error e =>
    rw [oaepDecode_error hc (kOf_le s) hdec]
    rfl

theorem rsaDecrypt_of_length_ne {c : Config} {n : Nat} {ct : Octets} (d : Nat) (l : Octets) (h : ct.length ≠ byteLen n) :
    rsaDecrypt c n d ct l = .error .decodingError := by
  rw [rsaDecrypt, if_pos h]

theorem rsaDecrypt_of_le {c : Config} {n : Nat} {ct : Octets} (d : Nat) (l : Octets) (hlen : ct.length = byteLen n)
    (h : n ≤ os2ip ct) : rsaDecrypt c n d ct l = .error .messageRepresentativeOutOfRange := by
  rw [rsaDecrypt, if_neg (not_not.mpr hlen), prim_of_le d h]

/-- DECRYPT (43_rsa R162, R163): the length, then the range, then the decoding of the power's octets. -/
theorem rsaDecrypt_code {s : State} (hc : s.cfg.Valid) :
    resultCode (rsaDecrypt s.cfg (intOf s .nwin) (intOf s .dwin) (mbufString s) (labelString s)) =
      expectedCode s .decrypt := by
  rw [expectedCode]
  split
  · next hlen =>
    rw [rsaDecrypt_of_length_ne _ _ (by rwa [mbufString_length])]
    rfl
  · next hlen =>
    have hlen' : (mbufString s).length = byteLen (intOf s .nwin) := by rw [mbufString_length]; exact not_not.mp hlen
    split
    · next hge =>
      rw [rsaDecrypt_of_le _ _ hlen' hge]
      rfl
    · next hlt =>
      have hpow : os2ip (mbufString s) ^ intOf s .dwin % intOf s .nwin < 256 ^ kOf s :=
        (Nat.mod_lt _ (by omega)).trans (lt_pow_byteLen _)
      have hem : (octetsOf (os2ip (mbufString s) ^ intOf s .dwin % intOf s .nwin) (kOf s)).length = byteLen (intOf s .nwin) :=
        octetsOf_length _ _
      rw [rsaDecrypt_eq_oaepDecode _ hlen' (Nat.lt_of_not_le hlt) hem (os2ip_octetsOf_of_lt hpow)]
      cases hdec : oaepDecode s.cfg (intOf s .nwin)
        (octetsOf (os2ip (mbufString s) ^ intOf s .dwin % intOf s .nwin) (kOf s)) (labelString s) with
      | ok m => rfl
      | error e =>
        rw [oaepDecode_error hc (kOf_le s) hdec]
        rfl

/-- Settles O43: a command records its result's code, and each result has the expected one. -/
theorem commandsReportTheFirstCause : Obligations.CommandsReportTheFirstCause := by
  intro s t i hc h
  cases i with
  | nop => cases h; rfl
  | i2osp => cases h; exact (completeString_errcode s _).trans (i2ospResult_code s)
  | os2ip =>
    cases h
    have hfit : ∀ v, os2ipResult s.cfg (mbufString s) = .ok v → v < 256 ^ s.cfg.kmax := fun v hv => (os2ipResult_ok hv).2
    exact (completeInt_errcode hfit).trans (os2ipResult_code s)
  | mgf1 => cases h; exact (completeString_errcode s _).trans (mgf1Result_code hc)
  | rsaep | rsadp | rsasp1 | rsavp1 => cases h; exact completeInt_prim_errcode s _
  | oaepEnc => cases h; exact (completeString_errcode _ _).trans (oaepEncode_code hc)
  | oaepDec => cases h; exact (completeString_errcode s _).trans (oaepDecode_code hc)
  | encrypt =>
    cases h
    exact (completeString_errcode _ _).trans ((rsaEncrypt_code hc _).trans (oaepEncode_code hc))
  | decrypt => cases h; exact (completeString_errcode s _).trans (rsaDecrypt_code hc)

/-! ### Refused transactions (60_exceptions R216, 20_memory R60, R61, R64, R69) -/

/-- A write answered ERR leaves the block as it is. -/
theorem hostWrite_err {s t : State} {a n : Nat} {v : Word} (h : hostWrite s a n v = (.err, t)) : t = s := by
  rcases hostWrite_cases s a n v with hw | ⟨u, hw, _⟩ <;> rw [hw] at h <;> cases h
  rfl

/-- An access of `n` octets at address `a` is refused, read or written: ERR with data 0, ERR without change. -/
def Refused (s : State) (a n : Nat) : Prop := hostRead s a n = refusedRead ∧ ∀ v, hostWrite s a n v = (.err, s)

/-- A wrong size, a misaligned address, or one outside the 64 KiB space (20_memory R64). -/
theorem refused_of_malformed (s : State) {a n : Nat} (h : ¬(n = 1 ∨ n = 4) ∨ a % n ≠ 0 ∨ a > 0xFFFF) : Refused s a n :=
  ⟨if_pos h, fun _ => if_pos h⟩

/-- An access to a register that is not of 4 octets. -/
theorem refused_of_narrow (s : State) {a n : Nat} (ha : a < 0x1000) (hn : n ≠ 4) : Refused s a n := by
  by_cases hmal : ¬(n = 1 ∨ n = 4) ∨ a % n ≠ 0 ∨ a > 0xFFFF
  · exact refused_of_malformed s hmal
  · exact ⟨by rw [hostRead, if_neg hmal, if_pos ha, if_pos hn], fun v => by rw [hostWrite, if_neg hmal, if_pos ha, if_pos hn]⟩

/-- A register address that no write reaches refuses a write of any size. -/
theorem hostWrite_noRegister {s : State} {a : Nat} {v : Word} (ha : a < 0x1000) (h4 : a % 4 = 0)
    (hctl : writeControl s a v = none) (hop : writeOperand s a v = (.err, s)) (n : Nat) : hostWrite s a n v = (.err, s) := by
  by_cases hn : n = 4
  · rw [hn, hostWrite_readOnly ha h4 hctl hop]
  · exact (refused_of_narrow s ha hn).2 v

/-- The addresses of the register page at which no register stands (20_memory R61). -/
def reservedRegister (a : Nat) : Prop := (0x0018 ≤ a ∧ a < 0x0020) ∨ (0x0038 ≤ a ∧ a < 0x1000)

theorem readRegister_reserved (s : State) {a : Nat} (h : reservedRegister a) : readRegister s a = refusedRead := by
  unfold reservedRegister at h
  unfold readRegister
  split
  case h_13 => rfl
  all_goals omega

theorem writeControl_reserved (s : State) {a : Nat} (h : reservedRegister a) (v : Word) : writeControl s a v = none := by
  unfold reservedRegister at h
  unfold writeControl
  split
  case h_4 => rfl
  all_goals omega

theorem writeOperand_reserved (s : State) {a : Nat} (h : reservedRegister a) (v : Word) :
    writeOperand s a v = (.err, s) := by
  unfold reservedRegister at h
  unfold writeOperand
  split
  case h_5 => rfl
  all_goals omega

theorem refused_of_reserved (s : State) {a : Nat} (h : reservedRegister a) (n : Nat) : Refused s a n := by
  have ha : a < 0x1000 := by unfold reservedRegister at h; omega
  by_cases hmal : ¬(n = 1 ∨ n = 4) ∨ a % n ≠ 0 ∨ a > 0xFFFF
  · exact refused_of_malformed s hmal
  by_cases hn : n = 4
  · subst hn
    refine ⟨?_, fun v => hostWrite_readOnly ha (by omega) (writeControl_reserved s h v) (writeOperand_reserved s h v)⟩
    rw [hostRead, if_neg hmal, if_pos ha, readRegister_reserved s h, if_neg (not_not.mpr rfl), ite_self]
  · exact refused_of_narrow s ha hn

/-- Above the register page an access is refused if its window refuses it. -/
theorem refused_of_window {s : State} {a n : Nat} (ha : 0x1000 ≤ a) (hr : readWindow s a n = refusedRead)
    (hw : ∀ v, writeWindow s a n v = (.err, s)) : Refused s a n := by
  by_cases hmal : ¬(n = 1 ∨ n = 4) ∨ a % n ≠ 0 ∨ a > 0xFFFF
  · exact refused_of_malformed s hmal
  · exact ⟨by rw [hostRead, if_neg hmal, if_neg (by omega), hr],
      fun v => by rw [hostWrite, if_neg hmal, if_neg (by omega), hw]⟩

theorem windowOfPage_of_ge {p : Nat} (h : 9 ≤ p) : windowOfPage p = none := by
  unfold windowOfPage
  split
  case h_9 => rfl
  all_goals omega

/-- Beyond the last window's page nothing answers (20_memory R61). -/
theorem refused_of_beyond_map (s : State) {a : Nat} (h : 0x9000 ≤ a) (n : Nat) : Refused s a n := by
  have hpage : windowOfPage (a / 0x1000) = none := windowOfPage_of_ge (by omega)
  exact refused_of_window (by omega) (by rw [readWindow, hpage]) (fun v => by rw [writeWindow, hpage])

/-- An access that reaches beyond the capacity of the window it starts in (20_memory R69). -/
theorem refused_of_beyond_capacity {s : State} {w : Window} {j n : Nat} (hj : j < 0x1000)
    (hcap : windowCap s.cfg w < j + n) : Refused s (windowBase w + j) n := by
  obtain ⟨hbase, hlo, _, hpage⟩ := windowBase_page w
  have hpage' : windowOfPage ((windowBase w + j) / 0x1000) = some w := by
    rw [show (windowBase w + j) / 0x1000 = windowBase w / 0x1000 by omega, hpage]
  have hover : (windowBase w + j) % 0x1000 + n > windowCap s.cfg w := by omega
  refine refused_of_window (by omega) ?_ fun v => ?_
  · simp only [readWindow, hpage', if_pos hover, ite_self]
  · simp only [writeWindow, hpage', if_pos hover, ite_self]

/-- Settles O51, ground by ground. -/
theorem refusedTransactionsChangeNothing : Obligations.RefusedTransactionsChangeNothing := by
  refine ⟨fun s t a n v => hostWrite_err, fun s a n v hground => ?_, fun s w j n v hj hcap => ?_, fun s n v => ?_⟩
  · have href : Refused s a n := by
      rcases hground with ⟨h1, h4⟩ | hal | hmap | ⟨hreg, hn⟩ | hres | hres
      · exact refused_of_malformed s (.inl (not_or.mpr ⟨h1, h4⟩))
      · exact refused_of_malformed s (.inr (.inl hal))
      · exact refused_of_beyond_map s hmap n
      · exact refused_of_narrow s hreg hn
      · exact refused_of_reserved s (.inl hres) n
      · exact refused_of_reserved s (.inr hres) n
    exact href.imp_right (· v)
  · exact (refused_of_beyond_capacity hj hcap).imp_right (· v)
  · exact hostWrite_noRegister (by omega) (by omega) rfl rfl n

end Sys2Proof.Machine

/-! ## Soft reset (70_reset R232) -/

namespace Sys2Proof.Machine

/-- Settles O2: the write ends in `resetBlock s`, the state the hardware reset steps to. -/
theorem softResetAnswersOkayAndWipes : Obligations.SoftResetAnswersOkayAndWipes := by
  intro s v hv
  exact ⟨resetBlock s, hostWrite_softReset hv, allZero_resetBlock s, resetBlock_ie s, resetBlock_cfg s, resetBlock_env s, rfl⟩

end Sys2Proof.Machine
